-- ==== Sys2Proof/Word.lean ====
section
/-!
DEFINITION. The words of the block: the 32-bit port word (00_scope.md R12), the raw sample, the byte.
-/

namespace Sys2Proof

/-- An unsigned 32-bit value: every operand, result and RampState field (00_scope.md R12). The W-bit timer
registers (10_state.md R25, W at most 31) are held in one as well. -/
abbrev Word := BitVec 32

/-- A raw sample, SW bits with SW at most 16 (00_scope.md R7), held in 16; also the 16-bit `HIST_IDX` (10_state.md R27). -/
abbrev Sample := BitVec 16

/-- The 8-bit diagnostic code (60_exceptions.md R141), and a byte of a byte-addressed bus (20_memory.md R47). -/
abbrev Byte := BitVec 8

/-- A 4-bit filter number, the `CH` field (30_encoding.md R64). -/
abbrev Channel := BitVec 4

end Sys2Proof
end

