-- ==== Sys2Proof/Config.lean ====
section
/-!
DEFINITION. The configuration parameters of 00_scope.md R7, their legal values (R8), the derived constants
(R9 to R11), and the reference configuration.
-/

namespace Sys2Proof

/-- `BUS_BYTE_ORDER`, the one parameter the spec leaves open (20_memory.md R47, D47). No rule reads it. -/
inductive ByteOrder where
  | little
  | big
deriving DecidableEq, Repr

/-- The parameters of one filter instance (00_scope.md R7). -/
structure FilterParams where
  /-- `CAPACITY[k]`, the history length. -/
  capacity : Nat
  /-- `STICKY_RANGE[k]`, the hysteresis threshold. -/
  stickyRange : Nat
  /-- `MIN_CLAMP[k]`. -/
  minClamp : Nat
  /-- `MAX_CLAMP[k]`. -/
  maxClamp : Nat
deriving DecidableEq, Repr

/-- The parameters of 00_scope.md R7, legal or not. -/
structure Params where
  /-- `CLOCK_HZ`. -/
  clockHz : Nat
  /-- `PRESCALER`. -/
  prescaler : Nat
  /-- `COMPARE_WIDTH`, W. -/
  compareWidth : Nat
  /-- `SAFETY_FLOOR_NS`. -/
  safetyFloorNs : Nat
  /-- `SAMPLE_WIDTH`, SW. -/
  sampleWidth : Nat
  /-- One entry for each filter instance: `NUM_FILTERS` is its length. -/
  filters : List FilterParams
  /-- `MIN_OUTPUT`. -/
  minOutput : Nat
  /-- `MAX_OUTPUT`. -/
  maxOutput : Nat
  /-- `BUS_BYTE_ORDER` (20_memory.md R47). -/
  busByteOrder : ByteOrder
deriving DecidableEq, Repr

/-- `TICK_NS = (1000000000 * PRESCALER) div CLOCK_HZ` (00_scope.md R9). -/
def Params.tickNs (p : Params) : Nat := 1000000000 * p.prescaler / p.clockHz

/-- `REG_MAX = 2^W - 1` (00_scope.md R10). -/
def Params.regMax (p : Params) : Nat := 2 ^ p.compareWidth - 1

/-- `CMP_MIN = 1` (00_scope.md R11). -/
def Params.cmpMin (_ : Params) : Nat := 1

/-- `CMP_MAX = REG_MAX - 1` (00_scope.md R11). -/
def Params.cmpMax (p : Params) : Nat := p.regMax - 1

/-- `NUM_FILTERS`, NF (00_scope.md R7). -/
def Params.numFilters (p : Params) : Nat := p.filters.length

/-- The legal values of one filter's parameters (00_scope.md R7); a zero clamp range is refused (R8). -/
def FilterParams.legal (f : FilterParams) : Bool :=
  decide (1 ≤ f.capacity ∧ f.capacity ≤ 65536 ∧ f.stickyRange < 2 ^ 32 ∧
    f.minClamp < f.maxClamp ∧ f.maxClamp < 2 ^ 32)

/-- The legal values of 00_scope.md R7, and `TICK_NS` not 0 (R9). -/
def Params.legal (p : Params) : Bool :=
  decide (1 ≤ p.clockHz ∧ 1 ≤ p.prescaler ∧ 2 ≤ p.compareWidth ∧ p.compareWidth ≤ 31 ∧
    1 ≤ p.safetyFloorNs ∧ 1 ≤ p.numFilters ∧ p.numFilters ≤ 16 ∧
    1 ≤ p.sampleWidth ∧ p.sampleWidth ≤ 16 ∧
    p.minOutput ≤ p.maxOutput ∧ p.maxOutput < 2 ^ 32 ∧ p.tickNs ≠ 0) &&
  p.filters.all FilterParams.legal

/-- A configuration of the block. One outside R7 has no model (00_scope.md R8): it cannot be built. -/
structure Config extends Params where
  legal : toParams.legal = true
deriving DecidableEq, Repr

/-- Configuring the block: the check is made here, not when a command runs (00_scope.md R8); none is the refusal. -/
def Config.ofParams? (p : Params) : Option Config :=
  if h : p.legal = true then some { toParams := p, legal := h } else none

/-- The reference configuration's parameters (00_scope.md R7, last column). Its byte order is a DESIGN CHOICE (log 14). -/
def Params.reference : Params where
  clockHz := 16000000
  prescaler := 8
  compareWidth := 16
  safetyFloorNs := 1000000
  sampleWidth := 16
  filters := [
    { capacity := 32, stickyRange := 4, minClamp := 10, maxClamp := 1013 },
    { capacity := 4, stickyRange := 8, minClamp := 100, maxClamp := 900 }]
  minOutput := 0
  maxOutput := 1023
  busByteOrder := .little

/-- The reference configuration (00_scope.md R7, D35). -/
def Config.reference : Config := { toParams := .reference, legal := by decide }

end Sys2Proof
end

