-- ==== Sys2Proof/Syntax.lean ====
section
/-!
DEFINITION. The commands of SWPT-CMD 1.0 (30_encoding.md R65), one constructor for each row of the opcode table,
and the command transaction (R60).
-/

namespace Sys2Proof

/-- A command with its operands (30_encoding.md R65, R70). -/
inductive Instr where
  /-- `START` (41_ramp_controller.md R92). -/
  | start
  /-- `STOP` (R93). -/
  | stop
  /-- `SET_FREQ freqHz` (R94). -/
  | setFreq (freqHz : Word)
  /-- `SET_RAMP targetFreqHz, rateHzPerSecond` (R95). -/
  | setRamp (targetFreqHz rateHzPerSecond : Word)
  /-- `GET_FREQ` (R96). -/
  | getFreq
  /-- `POP_OVF` (R97). -/
  | popOvf
  /-- `GET_STATUS` (R98). -/
  | getStatus
  /-- `FILTER_READ k, rawSample` (43_sensor_filter.md R130). -/
  | filterRead (k : Channel) (rawSample : Word)
  /-- `FILTER_INIT k, seed` (R131). -/
  | filterInit (k : Channel) (seed : Word)
  /-- `CONV_PERIOD periodNs` (40_converter.md R84). -/
  | convPeriod (periodNs : Word)
  /-- `CONV_FREQ freqHz` (R85). -/
  | convFreq (freqHz : Word)
deriving DecidableEq, Repr

/-- A command transaction: the command word and both operand words, always in full (30_encoding.md R60, 20_memory.md R48). -/
structure Transaction where
  /-- `CMDW`. -/
  cmdw : Word
  /-- `ARG0`. -/
  arg0 : Word
  /-- `ARG1`. -/
  arg1 : Word
deriving DecidableEq, Repr

end Sys2Proof
end

