-- ==== Sys2Proof/WellFormed.lean ====
section
/-!
DEFINITION. Which command terms are legal under a configuration: the channel check and the sample check of
30_encoding.md R66 and R67(c), (d). Every other term of Instr is legal under every configuration.
-/

namespace Sys2Proof

/-- The two checks of a filter command: `CH < NF` and `ARG0 < 2^SW` (30_encoding.md R66, R67). -/
def Config.filterOperandOk (c : Config) (k : Channel) (v : Word) : Bool :=
  decide (k.toNat < c.numFilters ∧ v.toNat < 2 ^ c.sampleWidth)

/-- A command that passes the decode checks of 30_encoding.md R67 under configuration `c`. -/
def Instr.wf (c : Config) : Instr → Bool
  | .start => true
  | .stop => true
  | .setFreq _ => true
  | .setRamp _ _ => true
  | .getFreq => true
  | .popOvf => true
  | .getStatus => true
  | .filterRead k v => c.filterOperandOk k v
  | .filterInit k v => c.filterOperandOk k v
  | .convPeriod _ => true
  | .convFreq _ => true

end Sys2Proof
end

