-- ==== Sys2Proof/Decode.lean ====
section
/-!
DEFINITION. The decoder of 30_encoding.md R72, total on all transactions and rejecting by name, and the encoder.
The two checks of R72 that need the configuration (CH below NF, ARG0 below 2^SW) are made by the two filter
commands themselves, before anything else they do (Machine/Operands.lean, log 12).
-/

namespace Sys2Proof

/-- Why a transaction names no command (30_encoding.md R67 (a), (b), (c)). -/
inductive Illegal where
  /-- (a) `RSV != 0`. -/
  | reservedBits
  /-- (b) `OPC` is not in the table of R65. -/
  | unassignedOpcode
  /-- (c) `CH != 0` on a command that is no filter command (R66). -/
  | channelNotZero
deriving DecidableEq, Repr

/-- `OPC = CMDW[7:0]` (30_encoding.md R63). -/
def opcField (w : Word) : Byte := w.extractLsb' 0 8

/-- `CH = CMDW[11:8]` (30_encoding.md R63). -/
def chField (w : Word) : Channel := w.extractLsb' 8 4

/-- `RSV = CMDW[31:12]` (30_encoding.md R63). -/
def rsvField (w : Word) : BitVec 20 := w.extractLsb' 12 20

/-- The opcode map (30_encoding.md R65): the command an opcode selects, with its operands taken unchanged from
the transaction (R64). None: the opcode is reserved (R68). -/
def selectCommand (opc : Byte) (ch : Channel) (arg0 arg1 : Word) : Option Instr :=
  match opc.toNat with
  | 0x01 => some .start
  | 0x02 => some .stop
  | 0x03 => some (.setFreq arg0)
  | 0x04 => some (.setRamp arg0 arg1)
  | 0x05 => some .getFreq
  | 0x06 => some .popOvf
  | 0x07 => some .getStatus
  | 0x10 => some (.filterRead ch arg0)
  | 0x11 => some (.filterInit ch arg0)
  | 0x20 => some (.convPeriod arg0)
  | 0x21 => some (.convFreq arg0)
  | _ => none

/-- Whether the command uses the channel field; every other command needs `CH = 0` (30_encoding.md R66). -/
def Instr.usesChannel : Instr → Bool
  | .start => false
  | .stop => false
  | .setFreq _ => false
  | .setRamp _ _ => false
  | .getFreq => false
  | .popOvf => false
  | .getStatus => false
  | .filterRead _ _ => true
  | .filterInit _ _ => true
  | .convPeriod _ => false
  | .convFreq _ => false

/-- The decoder (30_encoding.md R72), its checks in the order of R69. -/
def decode (t : Transaction) : Except Illegal Instr :=
  if rsvField t.cmdw ≠ 0 then .error .reservedBits
  else
    match selectCommand (opcField t.cmdw) (chField t.cmdw) t.arg0 t.arg1 with
    | none => .error .unassignedOpcode
    | some i =>
      if i.usesChannel = false ∧ chField t.cmdw ≠ 0 then .error .channelNotZero else .ok i

/-- `CMDW = {RSV, CH, OPC}` with `RSV = 0` (30_encoding.md R63). -/
def commandWord (ch : Channel) (opc : Byte) : Word := 0#20 ++ ch ++ opc

/-- The opcode of a command (30_encoding.md R65). -/
def Instr.opcode : Instr → Byte
  | .start => 0x01
  | .stop => 0x02
  | .setFreq _ => 0x03
  | .setRamp _ _ => 0x04
  | .getFreq => 0x05
  | .popOvf => 0x06
  | .getStatus => 0x07
  | .filterRead _ _ => 0x10
  | .filterInit _ _ => 0x11
  | .convPeriod _ => 0x20
  | .convFreq _ => 0x21

/-- The channel field of a command: 0 unless it is a filter command (30_encoding.md R66). -/
def Instr.channel : Instr → Channel
  | .start => 0
  | .stop => 0
  | .setFreq _ => 0
  | .setRamp _ _ => 0
  | .getFreq => 0
  | .popOvf => 0
  | .getStatus => 0
  | .filterRead k _ => k
  | .filterInit k _ => k
  | .convPeriod _ => 0
  | .convFreq _ => 0

/-- The operand words of a command, unused ones 0 as the assembler sets them (30_encoding.md R65, R70). -/
def Instr.args : Instr → Word × Word
  | .start => (0, 0)
  | .stop => (0, 0)
  | .setFreq f => (f, 0)
  | .setRamp f r => (f, r)
  | .getFreq => (0, 0)
  | .popOvf => (0, 0)
  | .getStatus => (0, 0)
  | .filterRead _ v => (v, 0)
  | .filterInit _ v => (v, 0)
  | .convPeriod p => (p, 0)
  | .convFreq f => (f, 0)

/-- The encoder: the transaction of a command (30_encoding.md R63 to R65, R70). -/
def encode (i : Instr) : Transaction where
  cmdw := commandWord i.channel i.opcode
  arg0 := i.args.1
  arg1 := i.args.2

/-- The transaction whose bits are the low `nbits` of `w`: `CMDW` in bits 31..0, `ARG0` in 63..32, `ARG1` in 95..64,
every bit above `nbits` zero. The port moves whole words, so no byte order enters (20_memory.md R47). -/
def Transaction.ofTableWord (nbits w : Nat) : Transaction :=
  let v := w % 2 ^ nbits
  { cmdw := BitVec.ofNat 32 v
    arg0 := BitVec.ofNat 32 (v / 2 ^ 32)
    arg1 := BitVec.ofNat 32 (v / 2 ^ 64) }

/-- What the decoder reads from a row of the opcode table. -/
def decodeTableWord (nbits w : Nat) : Option Instr :=
  match decode (.ofTableWord nbits w) with
  | .ok i => some i
  | .error _ => none

/-- The four bytes of a port word on a byte-addressed bus, lowest address first, under `BUS_BYTE_ORDER`
(20_memory.md R47). No rule of the block depends on it. -/
def busBytes (o : ByteOrder) (w : Word) : List Byte :=
  let bytes := [w.extractLsb' 0 8, w.extractLsb' 8 8, w.extractLsb' 16 8, w.extractLsb' 24 8]
  match o with
  | .little => bytes
  | .big => bytes.reverse

/-- The port word that four bus bytes make, lowest address first (20_memory.md R47); none for any other number of bytes. -/
def ofBusBytes (o : ByteOrder) (bytes : List Byte) : Option Word :=
  match o, bytes with
  | .little, [b0, b1, b2, b3] => some (b3 ++ b2 ++ b1 ++ b0)
  | .big, [b0, b1, b2, b3] => some (b0 ++ b1 ++ b2 ++ b3)
  | _, _ => none

end Sys2Proof
end

