-- ==== Sys2Proof/Machine/State.lean ====
section
/-!
DEFINITION. The architectural state (10_state.md R20 to R28), the model's own fields beside it, the reasons a step
can stop, and the reset state (R34).
-/

namespace Sys2Proof.Machine

/-- RampState (10_state.md R24). -/
structure RampState where
  /-- `CUR_FREQ`. -/
  curFreq : Word
  /-- `RAMP_EN`: the ramp state machine is Ramping, not Disabled (R29). -/
  rampEn : Bool
  /-- `TARGET`. -/
  target : Word
  /-- `STEP_HZ`. -/
  stepHz : Word
  /-- `PERIOD_TICKS`. -/
  periodTicks : Word
  /-- `ACC_TICKS`. -/
  accTicks : Word
  /-- `OVF_TICKS`. -/
  ovfTicks : Word
deriving DecidableEq, Repr

/-- The timer registers (10_state.md R25). The three W-bit registers are held in 32 bits; that they stay below
`2^W` is an invariant (log 6). -/
structure TimerRegs where
  /-- `CMP`. -/
  cmp : Word
  /-- `COUNTER`. -/
  counter : Word
  /-- `RUNNING`. -/
  running : Bool
  /-- `IE`. -/
  ie : Bool
  /-- `PENDING`. -/
  pending : Bool
  /-- `MATCH_CMP`. -/
  matchCmp : Word
deriving DecidableEq, Repr

/-- The fault state (10_state.md R26). -/
structure FaultState where
  /-- `HALTED`. -/
  halted : Bool
  /-- `ERR_CODE`. -/
  errCode : Byte
deriving DecidableEq, Repr

/-- FilterState of one channel (10_state.md R27) with its history memory (20_memory.md R45). -/
structure FilterState where
  /-- `Hist[k]`, entry 0 first. -/
  hist : List Sample
  /-- `HIST_IDX[k]`. -/
  histIdx : BitVec 16
  /-- `STICKY[k]`. -/
  sticky : Sample
deriving DecidableEq, Repr

/-- The four agents (10_state.md R22). -/
inductive Agent where
  | host
  | tick
  | service
  | reset
deriving DecidableEq, Repr

/-- One step of one agent, with what it brings: HOST presents a transaction (10_state.md R22, 30_encoding.md R60). -/
inductive AgentStep where
  | host (t : Transaction)
  | tick
  | service
  | reset
deriving DecidableEq, Repr

/-- An event of the output trace (30_encoding.md R62). -/
inductive Event where
  | pulse
  | trap (code : Byte)
deriving DecidableEq, Repr

/-- The response of a completed command (30_encoding.md R61). -/
structure Response where
  /-- `RESULT`. -/
  result : Word
  /-- `OK`. -/
  ok : Bool
deriving DecidableEq, Repr

/-- The state of the block, and the model's own fields: `cfg`, `schedule`, `trace`, `response` (log 1, 4, 7). -/
structure State where
  /-- The configuration (00_scope.md R7); no step changes it. -/
  cfg : Config
  /-- RampState. -/
  ramp : RampState
  /-- The timer registers. -/
  timer : TimerRegs
  /-- The fault state. -/
  fault : FaultState
  /-- FilterState of channel 0 first. -/
  filters : List FilterState
  /-- The steps still to come, next first: the free choice of 10_state.md R22 as data (log 1). -/
  schedule : List AgentStep
  /-- The run's output trace, oldest event first (30_encoding.md R62). -/
  trace : List Event
  /-- What the step just taken answered on the command port (30_encoding.md R61, log 8). -/
  response : Option Response
deriving DecidableEq, Repr

/-- Why the machine stops. -/
inductive Fault where
  /-- HOST, TICK or SERVICE is to step while `HALTED = 1`: only RESET has a step there (60_exceptions.md R140,
  93_implementation_defined.md V8). Raised by `whenRunning`. Safe (log 9). -/
  | halted
  /-- TICK is to step while `RUNNING = 0`, or SERVICE while `PENDING = 0` or `IE = 0`: that agent has no step
  (10_state.md R22). Raised by `stepTick` and `stepService`. Safe (log 3). -/
  | notEnabled (a : Agent)
  /-- SERVICE divides by `PERIOD_TICKS = 0`, which 00_scope.md R13 excludes and 10_state.md R33 rules out of every
  run. Raised by `stepService`. Safe (log 10). -/
  | zeroRampPeriod
  /-- A filter command finds no filter state of its channel, or a ring or an index outside `CAPACITY[k]`, which
  20_memory.md R45 and 10_state.md R27 rule out of every run. Raised by `execFilterRead` and `execFilterInit`. Safe (log 11). -/
  | noSuchHistoryEntry
  /-- The script directive RUN_EVENT waits for a compare match that cannot come, because `CMP` has more than W bits,
  which 10_state.md R25 rules out. Raised by `runUntilPending`. Safe (log 18). -/
  | noCompareMatch
deriving DecidableEq, Repr

/-- Why the model gives an instruction no meaning. -/
inductive Refusal where
  /-- The instruction has no meaning yet. Raised by `exec` alone. Safe. -/
  | notModelled (mnemonic : String)
deriving DecidableEq, Repr

/-- What a step answers. -/
abbrev Result := Host.Outcome State Fault Refusal

/-- RampState after reset (10_state.md R34). -/
def RampState.reset : RampState where
  curFreq := 0
  rampEn := false
  target := 0
  stepHz := 0
  periodTicks := 0
  accTicks := 0
  ovfTicks := 0

/-- The timer registers after reset (10_state.md R34). -/
def TimerRegs.reset : TimerRegs where
  cmp := 0
  counter := 0
  running := false
  ie := false
  pending := false
  matchCmp := 0

/-- The fault state after reset (10_state.md R34). -/
def FaultState.reset : FaultState where
  halted := false
  errCode := 0

/-- The state of a filter of the given capacity after reset (10_state.md R34, D28). -/
def FilterState.reset (p : FilterParams) : FilterState where
  hist := List.replicate p.capacity 0
  histIdx := 0
  sticky := 0

/-- The block under configuration `c` at power-up, which is a RESET (70_reset_and_hazards.md R160). -/
def State.powerUp (c : Config) : State where
  cfg := c
  ramp := .reset
  timer := .reset
  fault := .reset
  filters := c.filters.map .reset
  schedule := []
  trace := []
  response := none

/-- The machine right after reset, in the reference configuration (00_scope.md R7, log 5). -/
def State.reset : State := .powerUp .reference

end Sys2Proof.Machine
end

