-- ==== Sys2Proof/Machine/Ops.lean ====
section
/-!
DEFINITION. The operations every command and agent step shares: the gate of the command port, the response, the
output trace, trap entry and the only return from it (RESET), and the history memory.
-/

namespace Sys2Proof.Machine

/-- `ceil_div(a, b)` (00_scope.md R13). -/
def ceilDiv (a b : Nat) : Nat := (a + b - 1) / b

/-- `sat32(v)` (00_scope.md R13). -/
def sat32 (v : Nat) : Nat := min v (2 ^ 32 - 1)

/-- `|a - b|` over the integers (00_scope.md R13). -/
def absDiff (a b : Nat) : Nat := ((a : Int) - (b : Int)).natAbs

/-- HOST, TICK and SERVICE have a step only while `HALTED = 0` (10_state.md R22, 60_exceptions.md R140). -/
def whenRunning (s : State) (r : Result) : Result :=
  if s.fault.halted then .fault .halted else r

/-- `emit e`: the event joins the end of the output trace (30_encoding.md R62). -/
def State.emit (e : Event) (s : State) : State := { s with trace := s.trace ++ [e] }

/-- The state with response `(result, ok)` on the command port (30_encoding.md R61). -/
def State.responding (result : Word) (ok : Bool) (s : State) : State :=
  { s with response := some { result := result, ok := ok } }

/-- `respond(RESULT, OK)`: the command completes (30_encoding.md R61). -/
def respond (result : Word) (ok : Bool) (s : State) : Result := .next (s.responding result ok)

/-- The level output `HALTED`, which mirrors the state bit (30_encoding.md R62). -/
def State.haltedOutput (s : State) : Bool := s.fault.halted

/-- The trap kinds (60_exceptions.md R141). -/
inductive TrapCode where
  | frequencyOutOfRange
  | rampRateOutOfRange
  | illegalCommand
deriving DecidableEq, Repr

/-- The 8-bit diagnostic code of a trap (60_exceptions.md R141). -/
def trapNumber : TrapCode → Byte
  | .frequencyOutOfRange => 1
  | .rampRateOutOfRange => 2
  | .illegalCommand => 3

/-- Trap entry (60_exceptions.md R140): `HALTED` and `ERR_CODE` are written, the TRAP event is emitted, and the step
returns no response. -/
def State.trapped (code : TrapCode) (s : State) : State :=
  { s with
    fault := { halted := true, errCode := trapNumber code }
    trace := s.trace ++ [.trap (trapNumber code)]
    response := none }

/-- `raise Trap(code)` from state `s`, of which nothing of the current step is written but what `s` shows
(00_scope.md R15, 60_exceptions.md R140). -/
def trap (code : TrapCode) (s : State) : Result := .next (s.trapped code)

/-- RESET (70_reset_and_hazards.md R160), the only return from the halted state (60_exceptions.md R150): every field of
10_state.md R24 to R27 takes its reset value; the configuration and the run's trace stay; no event is emitted. -/
def State.resetBlock (s : State) : State :=
  { s with
    ramp := .reset
    timer := .reset
    fault := .reset
    filters := s.cfg.filters.map .reset }

/-- Filter `k` becomes `f`; no other filter changes (43_sensor_filter.md R131). -/
def State.setFilter (k : Nat) (f : FilterState) (s : State) : State :=
  { s with filters := s.filters.set k f }

/-- The history memory of one filter has its form (20_memory.md R45, 10_state.md R27): exactly `CAPACITY[k]` entries of SW
bits, the index within the ring, `STICKY[k]` of SW bits. -/
def FilterState.wf (sampleWidth : Nat) (p : FilterParams) (f : FilterState) : Bool :=
  decide (f.hist.length = p.capacity ∧ f.histIdx.toNat < p.capacity ∧ f.sticky.toNat < 2 ^ sampleWidth) &&
  f.hist.all (fun v => decide (v.toNat < 2 ^ sampleWidth))

/-- The history memory has its form: one ring for each filter of the configuration, each well-formed (20_memory.md R45). -/
def Memory.wf (c : Config) (filters : List FilterState) : Bool :=
  decide (filters.length = c.filters.length) &&
  (c.filters.zip filters).all (fun pf => pf.2.wf c.sampleWidth pf.1)

/-- `Hist[k][i] <- v` at `i = HIST_IDX[k]`, then the index advances modulo `CAPACITY[k]` (43_sensor_filter.md R132).
None: the ring or the index is not as 20_memory.md R45 says. -/
def insertSample (p : FilterParams) (v : Sample) (f : FilterState) : Option FilterState :=
  if f.hist.length = p.capacity ∧ f.histIdx.toNat < p.capacity then
    some { f with
      hist := f.hist.set f.histIdx.toNat v
      histIdx := BitVec.ofNat 16 ((f.histIdx.toNat + 1) % p.capacity) }
  else none

/-- Every entry of the ring becomes `v` (43_sensor_filter.md R131). -/
def fillHistory (p : FilterParams) (v : Sample) : List Sample := List.replicate p.capacity v

end Sys2Proof.Machine
end

