-- ==== Sys2Proof/Machine/Operands.lean ====
section
/-!
DEFINITION. The operand forms of 30_encoding.md R64. A frequency, a period or a rate is its operand word, unsigned and
unchanged (`BitVec.toNat`); a filter command takes a filter number and an SW-bit sample.
-/

namespace Sys2Proof.Machine

/-- The operands of a filter command (30_encoding.md R64): the parameters of filter `CH` and the sample `ARG0`. None: the
channel is not below NF or the sample is not below `2^SW`, the checks (c) and (d) of R67 that R72 makes (log 12). -/
def filterOperand (c : Config) (k : Channel) (arg0 : Word) : Option (FilterParams × Sample) :=
  match c.filters[k.toNat]? with
  | none => none
  | some p => if arg0.toNat < 2 ^ c.sampleWidth then some (p, arg0.setWidth 16) else none

end Sys2Proof.Machine
end

