-- ==== Sys2Proof/Machine/Filter.lean ====
section
/-!
DEFINITION. The sensor filter commands (43_sensor_filter.md).
-/

namespace Sys2Proof.Machine

/-- The mean of all entries of the ring, truncating (43_sensor_filter.md R133). -/
def historyMean (p : FilterParams) (hist : List Sample) : Nat :=
  (hist.map BitVec.toNat).sum / p.capacity

/-- The hysteresis gate: `STICKY[k]` takes the mean exactly when they differ by more than `STICKY_RANGE[k]`
(43_sensor_filter.md R134). -/
def hysteresisGate (p : FilterParams) (mean : Nat) (f : FilterState) : FilterState :=
  if p.stickyRange < absDiff mean f.sticky.toNat then { f with sticky := BitVec.ofNat 16 mean } else f

/-- The clamp of the value read out; the stored value is not clamped (43_sensor_filter.md R135). -/
def clampValue (p : FilterParams) (v : Nat) : Nat := min (max v p.minClamp) p.maxClamp

/-- The remap of a clamped value to the output range, multiplied before it is divided (43_sensor_filter.md R136). -/
def remap (c : Config) (p : FilterParams) (cl : Nat) : Nat :=
  c.minOutput + (cl - p.minClamp) * (c.maxOutput - c.minOutput) / (p.maxClamp - p.minClamp)

/-- `FILTER_READ k, rawSample` (43_sensor_filter.md R130). -/
def execFilterRead (k : Channel) (rawSample : Word) (s : State) : Result :=
  whenRunning s <|
    match filterOperand s.cfg k rawSample with
    | none => trap .illegalCommand s
    | some (p, v) =>
      match s.filters[k.toNat]? with
      | none => .fault .noSuchHistoryEntry
      | some f =>
        match insertSample p v f with
        | none => .fault .noSuchHistoryEntry
        | some f1 =>
          let f2 := hysteresisGate p (historyMean p f1.hist) f1
          respond (BitVec.ofNat 32 (remap s.cfg p (clampValue p f2.sticky.toNat))) true (s.setFilter k.toNat f2)

/-- `FILTER_INIT k, seed` (43_sensor_filter.md R131). -/
def execFilterInit (k : Channel) (seed : Word) (s : State) : Result :=
  whenRunning s <|
    match filterOperand s.cfg k seed with
    | none => trap .illegalCommand s
    | some (p, v) =>
      match s.filters[k.toNat]? with
      | none => .fault .noSuchHistoryEntry
      | some _ =>
        respond 0 true (s.setFilter k.toNat { hist := fillHistory p v, histIdx := 0, sticky := v })

end Sys2Proof.Machine
end

