-- ==== Sys2Proof/Machine/Converter.lean ====
section
/-!
DEFINITION. The frequency-to-compare converter (40_converter.md): the range check, the two conversions, and the two
query commands.
-/

namespace Sys2Proof.Machine

/-- `valid(v)`: `CMP_MIN <= v <= CMP_MAX` over the integers (40_converter.md R80). -/
def valid (c : Config) (v : Int) : Bool := decide ((c.cmpMin : Int) ≤ v ∧ v ≤ (c.cmpMax : Int))

/-- `ticksForPeriod(periodNs)`, truncating (40_converter.md R81). -/
def ticksForPeriod (c : Config) (periodNs : Nat) : Nat := periodNs / c.tickNs

/-- `ticksForFrequency(freqHz)`; none is the spec's NONE, and -1 is possible (40_converter.md R82). -/
def ticksForFrequency (c : Config) (freqHz : Nat) : Option Int :=
  if freqHz = 0 then none else some ((ticksForPeriod c (1000000000 / freqHz) : Int) - 1)

/-- The compare value of a frequency, where it has a valid one: `valid(NONE)` is false (40_converter.md R82). -/
def compareValue? (c : Config) (freqHz : Nat) : Option Nat :=
  match ticksForFrequency c freqHz with
  | none => none
  | some v => if valid c v then some v.toNat else none

/-- `CONV_PERIOD periodNs` (40_converter.md R84). -/
def execConvPeriod (periodNs : Word) (s : State) : Result :=
  whenRunning s <|
    let t := ticksForPeriod s.cfg periodNs.toNat
    if valid s.cfg t then respond (BitVec.ofNat 32 t) true s else respond 0 false s

/-- `CONV_FREQ freqHz` (40_converter.md R85). -/
def execConvFreq (freqHz : Word) (s : State) : Result :=
  whenRunning s <|
    match compareValue? s.cfg freqHz.toNat with
    | some c => respond (BitVec.ofNat 32 c) true s
    | none => respond 0 false s

end Sys2Proof.Machine
end

