-- ==== Sys2Proof/Machine/Flags.lean ====
section
/-!
DEFINITION. The 1-bit status fields (10_state.md R28): what arms and disarms the timer, what the match and the service do to
`PENDING`, and the status word.
-/

namespace Sys2Proof.Machine

/-- `armPeriodic(c)`: START's writes of the timer registers (42_timer_sequencer.md R119, 41_ramp_controller.md R92). -/
def TimerRegs.armPeriodic (c : Word) (t : TimerRegs) : TimerRegs :=
  { t with cmp := c, counter := 0, pending := false, running := true, ie := true }

/-- `disable()`: STOP's writes of the timer registers (42_timer_sequencer.md R119, 41_ramp_controller.md R93). -/
def TimerRegs.disable (t : TimerRegs) : TimerRegs :=
  { t with ie := false, running := false, pending := false }

/-- SERVICE is enabled by `PENDING` and `IE` (60_exceptions.md R145); the halt is checked apart. -/
def TimerRegs.serviceEnabled (t : TimerRegs) : Bool := t.pending && t.ie

/-- The status word `{0[27:0], PENDING, RAMP_EN, IE, RUNNING}` (41_ramp_controller.md R98). -/
def statusWord (ramp : RampState) (timer : TimerRegs) : Word :=
  0#28 ++ BitVec.ofBool timer.pending ++ BitVec.ofBool ramp.rampEn ++ BitVec.ofBool timer.ie ++
    BitVec.ofBool timer.running

end Sys2Proof.Machine
end

