-- ==== Sys2Proof/Machine/Ramp.lean ====
section
/-!
DEFINITION. The ramp controller's host commands and the ramp parameters (41_ramp_controller.md).
-/

namespace Sys2Proof.Machine

/-- `rampParams(rate)`: the step and the period in ticks; none is the spec's NONE (41_ramp_controller.md R90). -/
def rampParams (c : Config) (rate : Nat) : Option (Nat × Nat) :=
  if rate = 0 then none
  else
    let stepHz := max 1 (ceilDiv (rate * c.safetyFloorNs) 1000000000)
    if 2 ^ 32 ≤ stepHz then none
    else
      let periodTicks := ticksForPeriod c (stepHz * 1000000000 / rate)
      if valid c periodTicks then some (stepHz, periodTicks) else none

/-- SET_RAMP's writes: `ACC_TICKS` is cleared unless the ramp is armed with the same parameters (41_ramp_controller.md R95). -/
def RampState.arm (target stepHz periodTicks : Word) (r : RampState) : RampState :=
  let same := r.rampEn = true ∧ r.target = target ∧ r.stepHz = stepHz ∧ r.periodTicks = periodTicks
  { r with
    target := target
    stepHz := stepHz
    periodTicks := periodTicks
    rampEn := true
    accTicks := if same then r.accTicks else 0 }

/-- `START` (41_ramp_controller.md R92). -/
def execStart (s : State) : Result :=
  whenRunning s <|
    match compareValue? s.cfg s.ramp.curFreq.toNat with
    | none => trap .frequencyOutOfRange s
    | some c => respond 0 true { s with timer := s.timer.armPeriodic (BitVec.ofNat 32 c) }

/-- `STOP` (41_ramp_controller.md R93). -/
def execStop (s : State) : Result :=
  whenRunning s <|
    respond 0 true { s with timer := s.timer.disable, ramp := { s.ramp with rampEn := false } }

/-- `SET_FREQ freqHz` (41_ramp_controller.md R94). -/
def execSetFreq (freqHz : Word) (s : State) : Result :=
  whenRunning s <|
    match compareValue? s.cfg freqHz.toNat with
    | none => trap .frequencyOutOfRange s
    | some c =>
      respond 0 true
        { s with
          ramp := { s.ramp with rampEn := false, curFreq := freqHz }
          timer := { s.timer with cmp := BitVec.ofNat 32 c } }

/-- `SET_RAMP targetFreqHz, rateHzPerSecond` (41_ramp_controller.md R95): the target is checked before the rate
(60_exceptions.md R146). -/
def execSetRamp (targetFreqHz rateHzPerSecond : Word) (s : State) : Result :=
  whenRunning s <|
    match compareValue? s.cfg targetFreqHz.toNat with
    | none => trap .frequencyOutOfRange s
    | some _ =>
      match rampParams s.cfg rateHzPerSecond.toNat with
      | none => trap .rampRateOutOfRange s
      | some (stepHz, periodTicks) =>
        respond 0 true
          { s with ramp := s.ramp.arm targetFreqHz (BitVec.ofNat 32 stepHz) (BitVec.ofNat 32 periodTicks) }

/-- `GET_FREQ` (41_ramp_controller.md R96). -/
def execGetFreq (s : State) : Result :=
  whenRunning s <| respond s.ramp.curFreq true s

/-- `POP_OVF`: an atomic read and clear (41_ramp_controller.md R97, 20_memory.md R54). -/
def execPopOvf (s : State) : Result :=
  whenRunning s <| respond s.ramp.ovfTicks true { s with ramp := { s.ramp with ovfTicks := 0 } }

/-- `GET_STATUS` (41_ramp_controller.md R98). -/
def execGetStatus (s : State) : Result :=
  whenRunning s <| respond (statusWord s.ramp s.timer) true s

end Sys2Proof.Machine
end

