-- ==== Sys2Proof/Machine/Dispatch.lean ====
section
/-!
DEFINITION. The dispatch of 30_encoding.md R72: one arm for each command.
-/

namespace Sys2Proof.Machine

def exec (i : Instr) (s : State) : Host.Outcome State Fault Refusal :=
  match i with
  | .start => Sys2Proof.Machine.execStart s
  | .stop => Sys2Proof.Machine.execStop s
  | .setFreq freqHz => Sys2Proof.Machine.execSetFreq freqHz s
  | .setRamp targetFreqHz rateHzPerSecond => Sys2Proof.Machine.execSetRamp targetFreqHz rateHzPerSecond s
  | .getFreq => Sys2Proof.Machine.execGetFreq s
  | .popOvf => Sys2Proof.Machine.execPopOvf s
  | .getStatus => Sys2Proof.Machine.execGetStatus s
  | .filterRead k rawSample => Sys2Proof.Machine.execFilterRead k rawSample s
  | .filterInit k seed => Sys2Proof.Machine.execFilterInit k seed s
  | .convPeriod periodNs => Sys2Proof.Machine.execConvPeriod periodNs s
  | .convFreq freqHz => Sys2Proof.Machine.execConvFreq freqHz s

end Sys2Proof.Machine
end

