-- ==== Sys2Proof/Machine/Sequencer.lean ====
section
/-!
DEFINITION. The two internal agents: TICK and SERVICE (42_timer_sequencer.md).
-/

namespace Sys2Proof.Machine

/-- One increment of the timer counter: at `COUNTER = CMP` the compare match, which clears the counter, latches `CMP` and sets
`PENDING` (42_timer_sequencer.md R110, R111); otherwise the counter wraps at `2^W`. -/
def TimerRegs.tick (width : Nat) (t : TimerRegs) : TimerRegs :=
  if t.counter = t.cmp then { t with counter := 0, matchCmp := t.cmp, pending := true }
  else { t with counter := BitVec.ofNat 32 ((t.counter.toNat + 1) % 2 ^ width) }

/-- The TICK step (42_timer_sequencer.md R110). -/
def stepTick (s : State) : Result :=
  whenRunning s <|
    if s.timer.running then .next { s with timer := s.timer.tick s.cfg.compareWidth }
    else .fault (.notEnabled .tick)

/-- The adjusted frequency and whether the ramp is done: `delta` toward the target, over the integers, never past it
(42_timer_sequencer.md R112, R114). -/
def adjustFrequency (cur target delta : Nat) : Nat × Bool :=
  if cur < target then
    if target ≤ cur + delta then (target, true) else (cur + delta, false)
  else if target < cur then
    if (cur : Int) - (delta : Int) ≤ (target : Int) then (target, true) else (cur - delta, false)
  else (target, true)

/-- What step 2 of the service comes to (42_timer_sequencer.md R112 to R114). -/
inductive RampOutcome where
  /-- The step goes on from this state. -/
  | done (s : State)
  /-- The adjusted frequency fails the range check (R116). -/
  | outOfRange
  /-- `PERIOD_TICKS = 0`: no quotient (log 10). -/
  | noPeriod
deriving DecidableEq, Repr

/-- Step 2 of the service: accumulate `MATCH_CMP`, and adjust when at least one period has passed
(42_timer_sequencer.md R112, R113, R114). -/
def advanceRamp (s : State) : RampOutcome :=
  if s.ramp.rampEn = false then .done s
  else if s.ramp.periodTicks.toNat = 0 then .noPeriod
  else
    let period := s.ramp.periodTicks.toNat
    let acc := s.ramp.accTicks.toNat + s.timer.matchCmp.toNat
    let m := acc / period
    if m = 0 then .done { s with ramp := { s.ramp with accTicks := BitVec.ofNat 32 acc } }
    else
      let (f, done) := adjustFrequency s.ramp.curFreq.toNat s.ramp.target.toNat (s.ramp.stepHz.toNat * m)
      match compareValue? s.cfg f with
      | none => .outOfRange
      | some c =>
        .done
          { s with
            timer := { s.timer with cmp := BitVec.ofNat 32 c }
            ramp :=
              { s.ramp with
                curFreq := BitVec.ofNat 32 f
                rampEn := !done
                accTicks := BitVec.ofNat 32 (acc - m * period) } }

/-- Step 3 of the service: a counter past `CMP`, as step 2 left it, is counted in `OVF_TICKS`, which saturates, and cut back
(42_timer_sequencer.md R115). -/
def correctOverrun (s : State) : State :=
  if s.timer.cmp.toNat < s.timer.counter.toNat then
    let o := s.timer.counter.toNat - s.timer.cmp.toNat
    { s with
      ramp := { s.ramp with ovfTicks := BitVec.ofNat 32 (sat32 (s.ramp.ovfTicks.toNat + o)) }
      timer := { s.timer with counter := BitVec.ofNat 32 (s.timer.counter.toNat - o) } }
  else s

/-- Interrupt entry and step 1 of the service: `PENDING` is cleared and PULSE emitted, before anything else
(42_timer_sequencer.md R112, R117; 60_exceptions.md R148). -/
def pulse (s : State) : State :=
  { s with timer := { s.timer with pending := false }, trace := s.trace ++ [.pulse] }

/-- The SERVICE step (42_timer_sequencer.md R112). A trap in it keeps step 1's writes and nothing else (R116). -/
def stepService (s : State) : Result :=
  whenRunning s <|
    if s.timer.serviceEnabled then
      match advanceRamp (pulse s) with
      | .done s2 => .next (correctOverrun s2)
      | .outOfRange => trap .frequencyOutOfRange (pulse s)
      | .noPeriod => .fault .zeroRampPeriod
    else .fault (.notEnabled .service)

end Sys2Proof.Machine
end

