-- ==== Sys2Proof/Machine/Port.lean ====
section
/-!
DEFINITION. The command port (30_encoding.md R60, R72) and one step of any agent (10_state.md R22).
-/

namespace Sys2Proof.Machine

/-- One HOST step: the transaction is decoded and its command runs in the same step, or it is illegal and traps with code 3,
changing nothing else (30_encoding.md R60, R67, R72). -/
def stepHost (t : Transaction) (s : State) : Result :=
  match decode t with
  | .ok i => exec i s
  | .error _ => whenRunning s (trap .illegalCommand s)

/-- One RESET step, enabled in every state (70_reset_and_hazards.md R160). -/
def stepReset (s : State) : Result := .next s.resetBlock

/-- One step of one agent (10_state.md R22). -/
def agentStep (a : AgentStep) (s : State) : Result :=
  match a with
  | .host t => stepHost t s
  | .tick => stepTick s
  | .service => stepService s
  | .reset => stepReset s

/-- The step taken leaves the schedule, and the port shows no response until the step gives one (log 8). -/
def State.popped (rest : List AgentStep) (s : State) : State :=
  { s with schedule := rest, response := none }

/-- The next step of the schedule; with nothing scheduled the block waits (70_reset_and_hazards.md R161, log 2). -/
def nextStep (s : State) : Result :=
  match s.schedule with
  | [] => .next s
  | a :: rest => agentStep a (s.popped rest)

/-- The host presents a transaction as the very next step (30_encoding.md R60). -/
def State.present (t : Transaction) (s : State) : State :=
  { s with schedule := .host t :: s.schedule }

end Sys2Proof.Machine
end

