-- ==== Sys2Proof/Machine/Step.lean ====
section
/-!
DEFINITION. The step function, and placing a command where it takes its next one.
-/

namespace Sys2Proof.Machine

/-- One step of the run: the next agent of the schedule takes its step (10_state.md R22). -/
def step (s : State) : Host.Outcome State Fault Refusal := nextStep s

/-- `s` with the transaction of these bits presented by the host as the next step (log 13). -/
def State.withFetchWord (s : State) (nbits w : Nat) : State := s.present (.ofTableWord nbits w)

end Sys2Proof.Machine
end

