-- ==== Sys2Proof/Machine/Script.lean ====
section
/-!
DEFINITION. The script directives of 30_encoding.md R71: how the programs of the spec drive the four agents. They are no
commands and have no encoding.
-/

namespace Sys2Proof.Machine

/-- A line of a script: a command of the host, or a directive (30_encoding.md R71). -/
inductive Directive where
  /-- One HOST step with this transaction. -/
  | command (t : Transaction)
  /-- `TICK n`. -/
  | tick (n : Nat)
  /-- `SERVICE`. -/
  | service
  /-- `RUN_EVENT L`. -/
  | runEvent (lateTicks : Nat)
  /-- `RESET`. -/
  | reset
deriving DecidableEq, Repr

/-- Goes on from the next state; a stop stays a stop. -/
def andThen (r : Result) (f : State → Result) : Result :=
  match r with
  | .next s => f s
  | .fault x => .fault x
  | .refused x => .refused x

/-- The steps of a list of agents, in order, stopping at the first stop. -/
def runSteps : List AgentStep → State → Result
  | [], s => .next s
  | a :: rest, s => andThen (agentStep a s) (runSteps rest)

/-- TICK steps until `PENDING = 1`, at most `fuel` of them (30_encoding.md R71). -/
def runUntilPending : Nat → State → Result
  | 0, s => if s.timer.pending then .next s else .fault .noCompareMatch
  | fuel + 1, s => if s.timer.pending then .next s else andThen (stepTick s) (runUntilPending fuel)

/-- One line of a script (30_encoding.md R71). A match comes within `2^W` ticks of any counter value of W bits, which bounds
RUN_EVENT's wait (42_timer_sequencer.md R110). -/
def runDirective (d : Directive) (s : State) : Result :=
  match d with
  | .command t => agentStep (.host t) s
  | .tick n => runSteps (List.replicate n .tick) s
  | .service => agentStep .service s
  | .runEvent lateTicks =>
    andThen (runUntilPending (2 ^ s.cfg.compareWidth) s)
      (runSteps (List.replicate lateTicks .tick ++ [.service]))
  | .reset => agentStep .reset s

end Sys2Proof.Machine
end

