-- ==== Sys2Proof/Safety.lean ====
section
/-!
DEFINITION. The terms claims are stated in: the valid frequencies and rates of the spec, illegal transactions, the
invariant, reachable states, and fair runs.
-/

namespace Sys2Proof.Machine

/-- `10^9 div f div TICK_NS`, the ticks of one period of `f` Hz (40_converter.md R81, R82). -/
abbrev periodTicksOf (c : Config) (f : Nat) : Nat := 1000000000 / f / c.tickNs

/-- `valid(ticksForFrequency(f))`: `f` is not 0 and its compare value `periodTicksOf c f - 1`, over the integers, lies in
`[1, 2^W - 2]` (40_converter.md R80, R82). -/
abbrev FrequencyOk (c : Config) (f : Nat) : Prop :=
  f ≠ 0 ∧ 1 ≤ (periodTicksOf c f : Int) - 1 ∧ (periodTicksOf c f : Int) - 1 ≤ 2 ^ c.compareWidth - 2

/-- `stepHz` is the smallest whole step of at least 1 whose interval at `rate` Hz per second reaches the safety floor
(41_ramp_controller.md R90, R91). -/
abbrev SmallestStep (c : Config) (rate stepHz : Nat) : Prop :=
  1 ≤ stepHz ∧ rate * c.safetyFloorNs ≤ stepHz * 1000000000 ∧
    (stepHz = 1 ∨ (stepHz - 1) * 1000000000 < rate * c.safetyFloorNs)

/-- `rampParams(rate) = (stepHz, periodTicks)` (41_ramp_controller.md R90). -/
abbrev RampParamsAre (c : Config) (rate stepHz periodTicks : Nat) : Prop :=
  rate ≠ 0 ∧ SmallestStep c rate stepHz ∧ stepHz < 2 ^ 32 ∧
    periodTicks = stepHz * 1000000000 / rate / c.tickNs ∧
    1 ≤ periodTicks ∧ periodTicks ≤ 2 ^ c.compareWidth - 2

/-- The cases (a) to (d) of 30_encoding.md R67, on the bits of the command word. -/
abbrev IllegalTransaction (c : Config) (t : Transaction) : Prop :=
  let opc := t.cmdw.toNat % 256
  let ch := t.cmdw.toNat / 256 % 16
  t.cmdw.toNat / 4096 ≠ 0 ∨
  opc ∉ [0x01, 0x02, 0x03, 0x04, 0x05, 0x06, 0x07, 0x10, 0x11, 0x20, 0x21] ∨
  (opc ∈ [0x10, 0x11] ∧ c.numFilters ≤ ch) ∨
  (opc ∉ [0x10, 0x11] ∧ ch ≠ 0) ∨
  (opc ∈ [0x10, 0x11] ∧ 2 ^ c.sampleWidth ≤ t.arg0.toNat)

/-- The operand words a command uses are those of the transaction; the others are ignored (30_encoding.md R64, R65). -/
def OperandsOf (t : Transaction) : Instr → Prop
  | .start => True
  | .stop => True
  | .setFreq f => t.arg0 = f
  | .setRamp f r => t.arg0 = f ∧ t.arg1 = r
  | .getFreq => True
  | .popOvf => True
  | .getStatus => True
  | .filterRead _ v => t.arg0 = v
  | .filterInit _ v => t.arg0 = v
  | .convPeriod p => t.arg0 = p
  | .convFreq f => t.arg0 = f

/-- `s` after a trap with this code, and nothing else (60_exceptions.md R140). -/
abbrev State.afterTrap (code : Byte) (s : State) : State :=
  { s with fault := { halted := true, errCode := code }, trace := s.trace ++ [.trap code], response := none }

/-- What every reachable state satisfies (10_state.md R27, R30 to R33; 42_timer_sequencer.md R118). -/
structure Inv (s : State) : Prop where
  /-- The history memory has its form (20_memory.md R45). -/
  memory : Memory.wf s.cfg s.filters = true
  /-- The timer registers have W bits (10_state.md R25). -/
  cmpWidth : s.timer.cmp.toNat < 2 ^ s.cfg.compareWidth
  counterWidth : s.timer.counter.toNat < 2 ^ s.cfg.compareWidth
  matchWidth : s.timer.matchCmp.toNat < 2 ^ s.cfg.compareWidth
  /-- `IE = RUNNING` (R32). -/
  ieRunning : s.timer.ie = s.timer.running
  /-- No frequency is committed, or `CMP` is the valid compare value of `CUR_FREQ` (R30, R31). -/
  frequency : (s.ramp.curFreq.toNat = 0 ∧ s.timer.cmp.toNat = 0) ∨
    (FrequencyOk s.cfg s.ramp.curFreq.toNat ∧
      s.timer.cmp.toNat + 1 = periodTicksOf s.cfg s.ramp.curFreq.toNat)
  /-- The timer runs only with a committed frequency (R118). -/
  runningCommitted : s.timer.running = true → s.ramp.curFreq.toNat ≠ 0
  /-- A pending event has a running timer and a valid latched compare value (R25, R118). -/
  pendingMatch : s.timer.pending = true → s.timer.running = true ∧
    1 ≤ s.timer.matchCmp.toNat ∧ s.timer.matchCmp.toNat ≤ 2 ^ s.cfg.compareWidth - 2
  /-- An armed ramp has legal parameters (R33). -/
  ramping : s.ramp.rampEn = true → FrequencyOk s.cfg s.ramp.target.toNat ∧ 1 ≤ s.ramp.stepHz.toNat ∧
    1 ≤ s.ramp.periodTicks.toNat ∧ s.ramp.periodTicks.toNat ≤ 2 ^ s.cfg.compareWidth - 2 ∧
    s.ramp.accTicks.toNat < s.ramp.periodTicks.toNat
  /-- `ERR_CODE` is 0 until a trap, then 1, 2 or 3 (60_exceptions.md R141). -/
  errCode : (s.fault.halted = false ∧ s.fault.errCode = 0) ∨
    (s.fault.halted = true ∧ (s.fault.errCode = 1 ∨ s.fault.errCode = 2 ∨ s.fault.errCode = 3))

/-- A state some run from power-up reaches, for some configuration and some order of the agents (10_state.md R22). -/
inductive Reachable : State → Prop where
  | powerUp (c : Config) (schedule : List AgentStep) :
      Reachable { State.powerUp c with schedule := schedule }
  | step {s t : State} : Reachable s → step s = .next t → Reachable t

/-- An infinite run: at point `n` the agent step `agents n` leads from state `states n` to the next (10_state.md R22). -/
def IsRun (states : Nat → State) (agents : Nat → AgentStep) : Prop :=
  ∀ n, agentStep (agents n) (states n) = .next (states (n + 1))

/-- The SERVICE step is enabled (42_timer_sequencer.md R112). -/
abbrev ServiceReady (s : State) : Prop :=
  s.timer.pending = true ∧ s.timer.ie = true ∧ s.fault.halted = false

/-- The TICK step is enabled (42_timer_sequencer.md R110). -/
abbrev TickReady (s : State) : Prop := s.timer.running = true ∧ s.fault.halted = false

/-- The fairness of 60_exceptions.md R152: (a) a SERVICE that stays enabled is eventually taken; (b) while the timer runs, TICK
steps keep occurring. An assumption about runs, not a part of a step (log 16). -/
structure Fair (states : Nat → State) (agents : Nat → AgentStep) : Prop where
  service : ∀ n, (∀ m, n ≤ m → ServiceReady (states m)) → ∃ m, n ≤ m ∧ agents m = .service
  tick : ∀ n, (∀ m, n ≤ m → TickReady (states m)) → ∃ m, n ≤ m ∧ agents m = .tick

/-- The agent step is the HOST's, with a transaction that decodes to command `i`. -/
def Issues (a : AgentStep) (i : Instr) : Prop := ∃ x, a = .host x ∧ decode x = .ok i

/-- The steps of `run` lead from `s` to `t`, and no SERVICE among them records an overrun: none finds `COUNTER` past `CMP` as its step 2
leaves it (42_timer_sequencer.md R115). -/
def NoOverrunRun : List AgentStep → State → State → Prop
  | [], s, t => s = t
  | a :: run, s, t => ∃ u, agentStep a s = .next u ∧ (a = .service → s.timer.counter.toNat ≤ u.timer.cmp.toNat) ∧
      NoOverrunRun run u t

/-- What SERVICE accumulates: `ACC_TICKS + MATCH_CMP` (42_timer_sequencer.md R113). -/
abbrev accumulated (s : State) : Nat := s.ramp.accTicks.toNat + s.timer.matchCmp.toNat

/-- The frequency an adjustment leads to: `STEP_HZ` times the missed adjustments toward the target, and no further
(42_timer_sequencer.md R114, R121). -/
abbrev adjustedFrequency (s : State) : Nat :=
  let delta := s.ramp.stepHz.toNat * (accumulated s / s.ramp.periodTicks.toNat)
  if s.ramp.curFreq.toNat < s.ramp.target.toNat then min s.ramp.target.toNat (s.ramp.curFreq.toNat + delta)
  else max s.ramp.target.toNat (s.ramp.curFreq.toNat - delta)

/-- `OVF_TICKS` after step 3 of the service against compare value `cmp` (42_timer_sequencer.md R115). -/
abbrev countedOverrun (s : State) (cmp : Nat) : Word :=
  BitVec.ofNat 32 (min (s.ramp.ovfTicks.toNat + (s.timer.counter.toNat - cmp)) 4294967295)

/-- `COUNTER` after step 3 of the service against compare value `cmp` (42_timer_sequencer.md R115). -/
abbrev cutCounter (s : State) (cmp : Nat) : Word := BitVec.ofNat 32 (min s.timer.counter.toNat cmp)

/-- The pipeline's output for a value read out of the hysteresis gate: clamp, then remap (43_sensor_filter.md R135, R136). -/
abbrev outputOf (c : Config) (p : FilterParams) (v : Nat) : Nat :=
  c.minOutput + (min (max v p.minClamp) p.maxClamp - p.minClamp) * (c.maxOutput - c.minOutput) /
    (p.maxClamp - p.minClamp)

/-- FILTER_READ commands of filter `k`, one for each sample. -/
abbrev readsOf (k : Channel) (samples : List Word) : List AgentStep :=
  samples.map fun v => .host (encode (.filterRead k v))

/-- A step of one of the block's own two agents: no command and no reset. -/
abbrev Internal (a : AgentStep) : Prop := a = .tick ∨ a = .service

end Sys2Proof.Machine
end

