-- ==== Sys2Proof/Certificates/Slice0/Obligations.lean ====
section
/-!
DEFINITION. The statements for the provers, each from a numbered rule of spec/.
-/

open Sys2Proof Sys2Proof.Machine

/-! ## Encoding and the command port -/

/-- The encoding examples of 30_encoding.md R72 decode to their commands. -/
def Obligations.WrittenOutWordsDecode : Prop :=
  decode ⟨0x00000001, 0, 0⟩ = .ok .start ∧
  decode ⟨0x00000002, 0, 0⟩ = .ok .stop ∧
  decode ⟨0x00000003, 0x000003E8, 0⟩ = .ok (.setFreq 1000) ∧
  decode ⟨0x00000004, 0x000005DC, 0x000003E8⟩ = .ok (.setRamp 1500 1000) ∧
  decode ⟨0x00000005, 0, 0⟩ = .ok .getFreq ∧
  decode ⟨0x00000006, 0, 0⟩ = .ok .popOvf ∧
  decode ⟨0x00000007, 0, 0⟩ = .ok .getStatus ∧
  decode ⟨0x00000110, 0x000001F4, 0⟩ = .ok (.filterRead 1 500) ∧
  decode ⟨0x00000011, 0x00000200, 0⟩ = .ok (.filterInit 0 512) ∧
  decode ⟨0x00000020, 0x000F4240, 0⟩ = .ok (.convPeriod 1000000) ∧
  decode ⟨0x00000021, 0x000007D0, 0⟩ = .ok (.convFreq 2000)

/-- Decoding the encoding of any command gives it back (30_encoding.md R63 to R65). The decoder is the part of R72 that needs no
configuration: a filter command with `CH >= NF` or `ARG0 >= 2^SW` decodes too, and traps when it runs (log 12, DEDUCED). -/
def Obligations.DecodeOfEncodeIsTheCommand : Prop :=
  ∀ i : Instr, decode (encode i) = .ok i

/-- A transaction decodes to a command exactly when its command word is that command's one encoding and the operand
words the command uses are its operands; unused ones are ignored (30_encoding.md R63 to R66, R71). The decoder is the part of R72
that needs no configuration: the checks `CH < NF` and `ARG0 < 2^SW` are made by the filter commands, which raise Trap(3) where the
spec's decoder does, so here such a transaction decodes to its filter command; that is the model's reading (log 12, DEDUCED). -/
def Obligations.DecodeReadsExactlyTheEncoding : Prop :=
  ∀ (t : Transaction) (i : Instr), decode t = .ok i ↔ t.cmdw = (encode i).cmdw ∧ OperandsOf t i

/-- 30_encoding.md R67: each of the cases (a) to (d) makes the transaction illegal, and it raises Trap(3) and changes
nothing else. -/
def Obligations.IllegalTransactionTrapsAndChangesNothing : Prop :=
  ∀ (s : State) (t : Transaction), s.fault.halted = false → IllegalTransaction s.cfg t →
    stepHost t s = .next (s.afterTrap 3)

/-- A transaction in none of the cases (a) to (d) of 30_encoding.md R67 reaches a command, well-formed under the
configuration, and runs it (R72). -/
def Obligations.LegalTransactionRunsItsCommand : Prop :=
  ∀ (s : State) (t : Transaction), ¬ IllegalTransaction s.cfg t →
    ∃ i, decode t = .ok i ∧ i.wf s.cfg = true ∧ stepHost t s = exec i s

/-- A HOST step of the schedule whose transaction decodes to `i` is `exec` of `i`, with that step taken off the schedule and no
response on the port yet (30_encoding.md R60; the schedule and the response field are the model's, log 1 and 8). -/
def Obligations.StepRunsDecodedCommand : Prop :=
  ∀ (s : State) (t : Transaction) (rest : List AgentStep) (i : Instr),
    s.schedule = .host t :: rest → decode t = .ok i →
      step s = exec i { s with schedule := rest, response := none }

/-- A step takes the step of the agent the schedule names next, and with nothing scheduled the block waits
(10_state.md R22). The schedule, the waiting and the response field, cleared by the step taken, are the model's (log 1 and 2, DESIGN
CHOICE; log 8, DEDUCED). -/
def Obligations.StepTakesTheScheduledAgent : Prop :=
  ∀ (s : State) (rest : List AgentStep),
    (s.schedule = [] → step s = .next s) ∧
    (s.schedule = .tick :: rest → step s = stepTick { s with schedule := rest, response := none }) ∧
    (s.schedule = .service :: rest → step s = stepService { s with schedule := rest, response := none }) ∧
    (s.schedule = .reset :: rest →
      step s = .next { State.powerUp s.cfg with schedule := rest, trace := s.trace })

/-! ## Configuration -/

/-- 00_scope.md R8 with R7 and R9: a configuration is refused exactly when it is outside the legal values. -/
def Obligations.IllegalConfigurationIsRefused : Prop :=
  ∀ p : Params, Config.ofParams? p = none ↔
    ¬ (1 ≤ p.clockHz ∧ 1 ≤ p.prescaler ∧ 2 ≤ p.compareWidth ∧ p.compareWidth ≤ 31 ∧ 1 ≤ p.safetyFloorNs ∧
      (1 ≤ p.filters.length ∧ p.filters.length ≤ 16) ∧ (1 ≤ p.sampleWidth ∧ p.sampleWidth ≤ 16) ∧
      (∀ f ∈ p.filters, 1 ≤ f.capacity ∧ f.capacity ≤ 65536 ∧ f.stickyRange < 2 ^ 32 ∧
        f.minClamp < f.maxClamp ∧ f.maxClamp < 2 ^ 32) ∧
      p.minOutput ≤ p.maxOutput ∧ p.maxOutput < 2 ^ 32 ∧ 1000000000 * p.prescaler / p.clockHz ≠ 0)

/-! ## Converter -/

/-- 40_converter.md R83: the compare value does not increase with the frequency, the frequencies with a valid one form an
interval, and in the reference configuration it is `[31, 1000000]`. -/
def Obligations.ValidFrequenciesFormAnInterval : Prop :=
  (∀ (c : Config) (f1 f2 : Nat), 1 ≤ f1 → f1 ≤ f2 →
    ∃ c1 c2 : Int, ticksForFrequency c f1 = some c1 ∧ ticksForFrequency c f2 = some c2 ∧ c2 ≤ c1) ∧
  (∀ (c : Config) (f1 f f2 : Nat), f1 ≤ f → f ≤ f2 → (compareValue? c f1).isSome = true →
    (compareValue? c f2).isSome = true → (compareValue? c f).isSome = true) ∧
  (∀ f : Nat, (compareValue? Config.reference f).isSome = true ↔ 31 ≤ f ∧ f ≤ 1000000)

/-- 40_converter.md R86: where `c` is the valid compare value of `f`, the true period `10^9 / f` lies in
`[(c+1) * TICK_NS, (c+2) * TICK_NS + 1)`, both sides multiplied by `f`. -/
def Obligations.CompareValueWithinOneTickOfThePeriod : Prop :=
  ∀ (cfg : Config) (f c : Nat), compareValue? cfg f = some c →
    (c + 1) * cfg.tickNs * f ≤ 1000000000 ∧ 1000000000 < ((c + 2) * cfg.tickNs + 1) * f

/-- 40_converter.md R84: CONV_PERIOD answers `(periodNs div TICK_NS, 1)` where that is valid and `(0, 0)` otherwise, writes
nothing, ignores ARG1 and never traps. -/
def Obligations.ConvPeriodAnswers : Prop :=
  (∀ a0 a1, decode ⟨0x00000020, a0, a1⟩ = .ok (.convPeriod a0)) ∧
  ∀ (s : State) (p : Word), s.fault.halted = false →
    let t := p.toNat / s.cfg.tickNs
    exec (.convPeriod p) s = .next { s with
      response :=
        if 1 ≤ t ∧ t ≤ 2 ^ s.cfg.compareWidth - 2 then some ⟨BitVec.ofNat 32 t, true⟩ else some ⟨0, false⟩ }

/-- 40_converter.md R85: CONV_FREQ answers the compare value of a valid frequency with OK, and `(0, 0)` otherwise, frequency 0
included; it writes nothing, ignores ARG1 and never traps. -/
def Obligations.ConvFreqAnswers : Prop :=
  (∀ a0 a1, decode ⟨0x00000021, a0, a1⟩ = .ok (.convFreq a0)) ∧
  ∀ (s : State) (f : Word), s.fault.halted = false →
    exec (.convFreq f) s = .next { s with
      response :=
        if FrequencyOk s.cfg f.toNat then some ⟨BitVec.ofNat 32 (periodTicksOf s.cfg f.toNat - 1), true⟩
        else some ⟨0, false⟩ }

/-! ## Ramp controller commands -/

/-- 41_ramp_controller.md R90, R91: `rampParams` gives the smallest whole step that reaches the safety floor and its period in
ticks, and NONE exactly where there is no such pair in range. -/
def Obligations.RampParamsAreTheSmallestStep : Prop :=
  ∀ (c : Config) (rate stepHz periodTicks : Nat),
    rampParams c rate = some (stepHz, periodTicks) ↔ RampParamsAre c rate stepHz periodTicks

/-- 41_ramp_controller.md R92: START arms the timer at the compare value of `CUR_FREQ`, with counter and pending event cleared,
and traps with code 1 where `CUR_FREQ` has none; nothing else changes. -/
def Obligations.StartArmsTheTimerOrTraps : Prop :=
  (∀ a0 a1, decode ⟨0x00000001, a0, a1⟩ = .ok .start) ∧
  ∀ s : State, s.fault.halted = false →
    (FrequencyOk s.cfg s.ramp.curFreq.toNat →
      exec .start s = .next { s with
        timer :=
          { cmp := BitVec.ofNat 32 (periodTicksOf s.cfg s.ramp.curFreq.toNat - 1), counter := 0, running := true,
            ie := true, pending := false, matchCmp := s.timer.matchCmp }
        response := some ⟨0, true⟩ }) ∧
    (¬ FrequencyOk s.cfg s.ramp.curFreq.toNat → exec .start s = .next (s.afterTrap 1))

/-- 41_ramp_controller.md R93: STOP clears `IE`, `RUNNING`, `PENDING` and `RAMP_EN`, keeps every other field, and traps never. -/
def Obligations.StopDisarmsTheTimer : Prop :=
  (∀ a0 a1, decode ⟨0x00000002, a0, a1⟩ = .ok .stop) ∧
  ∀ s : State, s.fault.halted = false →
    exec .stop s = .next { s with
      timer := { s.timer with ie := false, running := false, pending := false }
      ramp := { s.ramp with rampEn := false }
      response := some ⟨0, true⟩ }

/-- 41_ramp_controller.md R94: SET_FREQ commits `CMP` and `CUR_FREQ` together and disables the ramp, and traps with code 1 on a
frequency with no valid compare value, 0 included; nothing else changes. -/
def Obligations.SetFreqCommitsOrTraps : Prop :=
  (∀ a0 a1, decode ⟨0x00000003, a0, a1⟩ = .ok (.setFreq a0)) ∧
  ∀ (s : State) (f : Word), s.fault.halted = false →
    (FrequencyOk s.cfg f.toNat →
      exec (.setFreq f) s = .next { s with
        ramp := { s.ramp with rampEn := false, curFreq := f }
        timer := { s.timer with cmp := BitVec.ofNat 32 (periodTicksOf s.cfg f.toNat - 1) }
        response := some ⟨0, true⟩ }) ∧
    (¬ FrequencyOk s.cfg f.toNat → exec (.setFreq f) s = .next (s.afterTrap 1))

/-- 41_ramp_controller.md R95 with R90: SET_RAMP arms the ramp with the parameters of the rate, keeps `ACC_TICKS` exactly where
the ramp is armed with the same ones, traps with code 1 on a bad target, and else with code 2 on a bad rate; nothing else
changes. -/
def Obligations.SetRampArmsOrTraps : Prop :=
  (∀ a0 a1, decode ⟨0x00000004, a0, a1⟩ = .ok (.setRamp a0 a1)) ∧
  ∀ (s : State) (f r : Word), s.fault.halted = false →
    (¬ FrequencyOk s.cfg f.toNat → exec (.setRamp f r) s = .next (s.afterTrap 1)) ∧
    (FrequencyOk s.cfg f.toNat → (∀ n p, ¬ RampParamsAre s.cfg r.toNat n p) →
      exec (.setRamp f r) s = .next (s.afterTrap 2)) ∧
    (FrequencyOk s.cfg f.toNat → ∀ n p, RampParamsAre s.cfg r.toNat n p →
      exec (.setRamp f r) s = .next { s with
        ramp :=
          { s.ramp with
            target := f
            stepHz := BitVec.ofNat 32 n
            periodTicks := BitVec.ofNat 32 p
            rampEn := true
            accTicks :=
              if s.ramp.rampEn = true ∧ s.ramp.target = f ∧ s.ramp.stepHz.toNat = n ∧ s.ramp.periodTicks.toNat = p
              then s.ramp.accTicks else 0 }
        response := some ⟨0, true⟩ })

/-- 41_ramp_controller.md R96: GET_FREQ answers `CUR_FREQ` and writes nothing. -/
def Obligations.GetFreqReadsTheLiveFrequency : Prop :=
  (∀ a0 a1, decode ⟨0x00000005, a0, a1⟩ = .ok .getFreq) ∧
  ∀ s : State, s.fault.halted = false →
    exec .getFreq s = .next { s with response := some ⟨s.ramp.curFreq, true⟩ }

/-- 41_ramp_controller.md R97: POP_OVF answers `OVF_TICKS` and clears it, and writes nothing else. -/
def Obligations.PopOvfReadsAndClears : Prop :=
  (∀ a0 a1, decode ⟨0x00000006, a0, a1⟩ = .ok .popOvf) ∧
  ∀ s : State, s.fault.halted = false →
    exec .popOvf s = .next { s with
      ramp := { s.ramp with ovfTicks := 0 }, response := some ⟨s.ramp.ovfTicks, true⟩ }

/-- 41_ramp_controller.md R98: GET_STATUS answers bit 0 `RUNNING`, bit 1 `IE`, bit 2 `RAMP_EN`, bit 3 `PENDING`, all others 0, and
writes nothing. -/
def Obligations.GetStatusReadsTheFlags : Prop :=
  (∀ a0 a1, decode ⟨0x00000007, a0, a1⟩ = .ok .getStatus) ∧
  ∀ s : State, s.fault.halted = false →
    exec .getStatus s = .next { s with
      response := some
        { result := BitVec.ofNat 32
            (s.timer.running.toNat + 2 * s.timer.ie.toNat + 4 * s.ramp.rampEn.toNat + 8 * s.timer.pending.toNat)
          ok := true } }

/-- 41_ramp_controller.md R99: a trapping command leaves every field as it was, except `HALTED` and `ERR_CODE`; the trace grows by
its TRAP event and there is no response (60_exceptions.md R140). -/
def Obligations.TrappingCommandWritesNothing : Prop :=
  ∀ (i : Instr) (s t : State), exec i s = .next t → t.fault.halted = true →
    s.fault.halted = false ∧
    ∃ code, code ∈ [(1 : Byte), 2, 3] ∧ t = s.afterTrap code

/-- Which commands trap with which code (60_exceptions.md R141 to R144, R146): STOP, the reads and the conversions never trap;
START and SET_FREQ with 1 only; SET_RAMP with 1 or 2; the filter commands with 3, and only where they are not well-formed. -/
def Obligations.CommandsTrapWithTheirCodes : Prop :=
  ∀ (i : Instr) (s t : State), exec i s = .next t → t.fault.halted = true →
    ((i = .start ∨ ∃ f, i = .setFreq f) ∧ t.fault.errCode = 1) ∨
    ((∃ f r, i = .setRamp f r) ∧ (t.fault.errCode = 1 ∨ t.fault.errCode = 2)) ∨
    (i.wf s.cfg = false ∧ t.fault.errCode = 3)

/-- Every command takes its step while the block is not halted and its history memory has its form: it never stops the machine
(20_memory.md R54, 30_encoding.md R60). -/
def Obligations.EveryCommandTakesItsStep : Prop :=
  ∀ (i : Instr) (s : State), s.fault.halted = false → Memory.wf s.cfg s.filters = true → ∃ t, exec i s = .next t

/-- The commands that leave the same state when issued twice in a row as once (20_memory.md R49, 42_timer_sequencer.md R122):
STOP, SET_FREQ, SET_RAMP and the queries, where they complete. -/
def Obligations.RepeatedCommandsChangeNothing : Prop :=
  ∀ (i : Instr) (s t : State),
    (i = .stop ∨ (∃ f, i = .setFreq f) ∨ (∃ f r, i = .setRamp f r) ∨ i = .getFreq ∨ i = .getStatus ∨
      (∃ p, i = .convPeriod p) ∨ (∃ f, i = .convFreq f)) →
    exec i s = .next t → t.fault.halted = false → exec i t = .next t

/-- A SET_RAMP with the armed ramp's target and rate changes no field, so it can come between any two steps without a trace in
the ramp's progress (42_timer_sequencer.md R122). -/
def Obligations.RearmingTheSameRampIsInvisible : Prop :=
  ∀ (s t : State) (f r : Word), exec (.setRamp f r) s = .next t → t.fault.halted = false →
    ∀ u : State, u.cfg = t.cfg → u.fault.halted = false → u.ramp.rampEn = true → u.ramp.target = t.ramp.target →
      u.ramp.stepHz = t.ramp.stepHz → u.ramp.periodTicks = t.ramp.periodTicks →
      exec (.setRamp f r) u = .next { u with response := some ⟨0, true⟩ }

/-! ## Timer and service -/

/-- 42_timer_sequencer.md R111: the TICK that finds `COUNTER = CMP` is the compare match: it clears the counter, latches `CMP` into
`MATCH_CMP` and sets `PENDING`, one event more or not, and changes nothing else. -/
def Obligations.TickAtCompareIsTheMatch : Prop :=
  ∀ s : State, TickReady s → s.timer.counter = s.timer.cmp →
    stepTick s = .next { s with timer :=
      { s.timer with counter := 0, matchCmp := s.timer.cmp, pending := true } }

/-- The TICK that finds `COUNTER` other than `CMP` increments it modulo `2^W` and changes nothing else; TICK has no step while the
timer is stopped (42_timer_sequencer.md R110, 10_state.md R22). -/
def Obligations.TickElsewhereCounts : Prop :=
  ∀ s : State, s.fault.halted = false →
    (s.timer.running = true → s.timer.counter ≠ s.timer.cmp →
      stepTick s = .next { s with timer :=
        { s.timer with counter := BitVec.ofNat 32 ((s.timer.counter.toNat + 1) % 2 ^ s.cfg.compareWidth) } }) ∧
    (s.timer.running = false → stepTick s = .fault (.notEnabled .tick))

/-- With `CMP = N` constant and the counter at 0, the next match is the TICK number N+1: before it the counter only counts
(42_timer_sequencer.md R110). -/
def Obligations.MatchComesAfterComparePlusOneTicks : Prop :=
  ∀ (s : State) (n : Nat), TickReady s → s.timer.counter = 0 → s.timer.cmp.toNat < 2 ^ s.cfg.compareWidth →
    (n ≤ s.timer.cmp.toNat →
      runSteps (List.replicate n .tick) s = .next { s with timer := { s.timer with counter := BitVec.ofNat 32 n } }) ∧
    (n = s.timer.cmp.toNat + 1 →
      runSteps (List.replicate n .tick) s = .next { s with timer :=
        { s.timer with counter := 0, matchCmp := s.timer.cmp, pending := true } })

/-- A counter past `CMP` wraps before it can match: the match is the TICK number `2^W - COUNTER + CMP + 1`, and no earlier TICK
sets `PENDING` (70_reset_and_hazards.md R165). -/
def Obligations.CounterPastCompareWrapsFirst : Prop :=
  ∀ (s : State) (n : Nat), TickReady s → s.timer.cmp.toNat < s.timer.counter.toNat →
    s.timer.counter.toNat < 2 ^ s.cfg.compareWidth →
    (n ≤ 2 ^ s.cfg.compareWidth - s.timer.counter.toNat + s.timer.cmp.toNat →
      runSteps (List.replicate n .tick) s = .next { s with timer :=
        { s.timer with counter := BitVec.ofNat 32 ((s.timer.counter.toNat + n) % 2 ^ s.cfg.compareWidth) } }) ∧
    (n = 2 ^ s.cfg.compareWidth - s.timer.counter.toNat + s.timer.cmp.toNat + 1 →
      runSteps (List.replicate n .tick) s = .next { s with timer :=
        { s.timer with counter := 0, matchCmp := s.timer.cmp, pending := true } })

/-- SERVICE with no ramp, or with less than one period accumulated: PULSE, `PENDING` cleared, the overrun of the live counter past
`CMP` counted and cut back; with a ramp, `ACC_TICKS` takes the sum; nothing else changes (42_timer_sequencer.md R112, R113,
R115, R117). -/
def Obligations.ServiceWithoutAdjustment : Prop :=
  ∀ s : State, ServiceReady s →
    (s.ramp.rampEn = false →
      stepService s = .next { s with
        ramp := { s.ramp with ovfTicks := countedOverrun s s.timer.cmp.toNat }
        timer := { s.timer with pending := false, counter := cutCounter s s.timer.cmp.toNat }
        trace := s.trace ++ [.pulse] }) ∧
    (s.ramp.rampEn = true → accumulated s < s.ramp.periodTicks.toNat →
      stepService s = .next { s with
        ramp :=
          { s.ramp with
            accTicks := BitVec.ofNat 32 (accumulated s)
            ovfTicks := countedOverrun s s.timer.cmp.toNat }
        timer := { s.timer with pending := false, counter := cutCounter s s.timer.cmp.toNat }
        trace := s.trace ++ [.pulse] })

/-- SERVICE with at least one period accumulated: the frequency moves toward the target by `STEP_HZ` for each missed adjustment and
stops at it, `CMP` and `CUR_FREQ` are committed together, the remainder is kept, the ramp is disabled exactly at the target, and
the overrun is measured against the new `CMP` (42_timer_sequencer.md R112, R114, R115, R117). -/
def Obligations.ServiceAdjustsTowardTheTarget : Prop :=
  ∀ s : State, ServiceReady s → s.ramp.rampEn = true → 1 ≤ s.ramp.periodTicks.toNat →
    s.ramp.periodTicks.toNat ≤ accumulated s → FrequencyOk s.cfg (adjustedFrequency s) →
    let f := adjustedFrequency s
    let cmp := periodTicksOf s.cfg f - 1
    stepService s = .next { s with
      ramp :=
        { s.ramp with
          curFreq := BitVec.ofNat 32 f
          rampEn := decide (f ≠ s.ramp.target.toNat)
          accTicks := BitVec.ofNat 32 (accumulated s % s.ramp.periodTicks.toNat)
          ovfTicks := countedOverrun s cmp }
      timer := { s.timer with cmp := BitVec.ofNat 32 cmp, pending := false, counter := cutCounter s cmp }
      trace := s.trace ++ [.pulse] }

/-- A SERVICE whose adjusted frequency fails the range check clears `PENDING`, emits PULSE, writes nothing of steps 2 and 3, and
traps with code 1 (42_timer_sequencer.md R116). -/
def Obligations.ServiceTrapKeepsOnlyThePulse : Prop :=
  ∀ s : State, ServiceReady s → s.ramp.rampEn = true → 1 ≤ s.ramp.periodTicks.toNat →
    s.ramp.periodTicks.toNat ≤ accumulated s → ¬ FrequencyOk s.cfg (adjustedFrequency s) →
    stepService s = .next
      (({ s with timer := { s.timer with pending := false }, trace := s.trace ++ [.pulse] } : State).afterTrap 1)

/-- SERVICE has a step exactly while `PENDING = 1`, `IE = 1` and `HALTED = 0` (60_exceptions.md R145, 10_state.md R22), the excluded
division by a zero `PERIOD_TICKS` apart (00_scope.md R13; stopping there is the model's choice, log 10). -/
def Obligations.ServiceIsEnabledByPendingAndEnable : Prop :=
  ∀ s : State, (s.ramp.rampEn = true → s.ramp.periodTicks.toNat ≠ 0) →
    ((∃ t, stepService s = .next t) ↔ ServiceReady s)

/-- 42_timer_sequencer.md R118: no reachable SERVICE traps. -/
def Obligations.NoReachableServiceTraps : Prop :=
  ∀ s : State, Reachable s → ServiceReady s → ∃ t, stepService s = .next t ∧ t.fault.halted = false

/-- From every state with the invariant, SERVICE leaves `CUR_FREQ` between its old value and `TARGET`, so at `TARGET` if it was there
(42_timer_sequencer.md R114, R121); an adjustment moves it by at least `STEP_HZ` toward `TARGET` or lands on it, and arrives there
exactly with the ramp disabled. -/
def Obligations.RampNeverOvershoots : Prop :=
  ∀ s t : State, Inv s → stepService s = .next t → s.ramp.rampEn = true →
    t.ramp.target = s.ramp.target ∧
    (s.ramp.curFreq.toNat ≤ s.ramp.target.toNat → s.ramp.curFreq.toNat ≤ t.ramp.curFreq.toNat ∧
      t.ramp.curFreq.toNat ≤ s.ramp.target.toNat) ∧
    (s.ramp.target.toNat ≤ s.ramp.curFreq.toNat → t.ramp.curFreq.toNat ≤ s.ramp.curFreq.toNat ∧
      s.ramp.target.toNat ≤ t.ramp.curFreq.toNat) ∧
    (s.ramp.periodTicks.toNat ≤ accumulated s →
      t.ramp.curFreq = s.ramp.target ∨
      s.ramp.curFreq.toNat + s.ramp.stepHz.toNat ≤ t.ramp.curFreq.toNat ∨
      t.ramp.curFreq.toNat + s.ramp.stepHz.toNat ≤ s.ramp.curFreq.toNat) ∧
    (s.ramp.periodTicks.toNat ≤ accumulated s →
      (t.ramp.curFreq = s.ramp.target ↔ t.ramp.rampEn = false))

/-- A bound on the ramp (42_timer_sequencer.md R121): from a state with the invariant and an armed ramp, any run of TICK and SERVICE
steps with at least `PERIOD_TICKS * (|CUR_FREQ - TARGET| + 1)` SERVICE steps ends at the target with the ramp disabled. -/
def Obligations.RampReachesTheTargetInBoundedServices : Prop :=
  ∀ (s t : State) (run : List AgentStep), Inv s → s.ramp.rampEn = true → (∀ a ∈ run, Internal a) →
    runSteps run s = .next t →
    s.ramp.periodTicks.toNat * (absDiff s.ramp.curFreq.toNat s.ramp.target.toNat + 1) ≤ run.count .service →
    t.ramp.curFreq = s.ramp.target ∧ t.ramp.rampEn = false

/-- Under the fairness of 60_exceptions.md R152 and with no command or reset, a running ramp reaches its target with the ramp
disabled (42_timer_sequencer.md R121). -/
def Obligations.FairRunsReachTheRampTarget : Prop :=
  ∀ (states : Nat → State) (agents : Nat → AgentStep), IsRun states agents → Fair states agents →
    Inv (states 0) → (states 0).fault.halted = false → (states 0).timer.running = true →
    (states 0).ramp.rampEn = true → (∀ n, Internal (agents n)) →
    ∃ n, (states n).ramp.curFreq = (states 0).ramp.target ∧ (states n).ramp.rampEn = false

/-- 42_timer_sequencer.md R123: an overrun of `o` ticks that a SERVICE records with `OVF_TICKS = 0` before it is answered by the next
POP_OVF, whatever steps but a RESET come between, and every later POP_OVF answers 0, whatever steps come between, until a SERVICE
records an overrun. -/
def Obligations.OverrunIsReportedOnce : Prop :=
  ∀ s t : State, stepService s = .next t → t.fault.halted = false → s.ramp.ovfTicks = 0 →
    ∀ (between : List AgentStep) (u : State), (∀ a ∈ between, a ≠ .reset ∧ ¬ Issues a .popOvf) →
      NoOverrunRun between t u → u.fault.halted = false →
      ∃ v, exec .popOvf u = .next v ∧
        v.response = some ⟨BitVec.ofNat 32 (s.timer.counter.toNat - t.timer.cmp.toNat), true⟩ ∧
        ∀ (later : List AgentStep) (w : State), NoOverrunRun later v w → w.fault.halted = false →
          ∃ x, exec .popOvf w = .next x ∧ x.response = some ⟨0, true⟩

/-- RUN_EVENT on a running timer ends: the match comes, and one SERVICE follows with one PULSE (30_encoding.md R71,
42_timer_sequencer.md R110, R117). -/
def Obligations.RunEventEndsWithOnePulse : Prop :=
  ∀ (s : State) (late : Nat), Inv s → s.fault.halted = false → s.timer.running = true →
    ∃ t, runDirective (.runEvent late) s = .next t ∧ t.trace = s.trace ++ [.pulse] ∧
      t.timer.pending = false ∧ t.fault = s.fault

/-! ## Sensor filter -/

/-- 43_sensor_filter.md R130: FILTER_READ inserts the sample, averages the ring, passes the mean through the hysteresis gate, clamps and
remaps, and changes that filter alone; ARG1 is ignored; an operand that fails the decode checks traps with code 3. -/
def Obligations.FilterReadRunsThePipeline : Prop :=
  (∀ k a0 a1, decode ⟨0#20 ++ (k : Channel) ++ 0x10#8, a0, a1⟩ = .ok (.filterRead k a0)) ∧
  ∀ (s : State) (k : Channel) (v : Word), s.fault.halted = false →
    (¬ (k.toNat < s.cfg.filters.length ∧ v.toNat < 2 ^ s.cfg.sampleWidth) →
      exec (.filterRead k v) s = .next (s.afterTrap 3)) ∧
    ∀ (p : FilterParams) (f : FilterState), s.cfg.filters[k.toNat]? = some p → s.filters[k.toNat]? = some f →
      f.hist.length = p.capacity → f.histIdx.toNat < p.capacity → v.toNat < 2 ^ s.cfg.sampleWidth →
      let hist := f.hist.set f.histIdx.toNat (v.setWidth 16)
      let mean := (hist.map BitVec.toNat).sum / p.capacity
      let sticky := if (p.stickyRange : Int) < |(mean : Int) - (f.sticky.toNat : Int)| then mean else f.sticky.toNat
      exec (.filterRead k v) s = .next { s with
        filters := s.filters.set k.toNat
          { hist := hist
            histIdx := BitVec.ofNat 16 ((f.histIdx.toNat + 1) % p.capacity)
            sticky := BitVec.ofNat 16 sticky }
        response := some ⟨BitVec.ofNat 32 (outputOf s.cfg p sticky), true⟩ }

/-- 43_sensor_filter.md R131: FILTER_INIT fills the ring with the seed, sets the index to 0 and `STICKY` to the seed, and changes that
filter alone; with seed 0 that is the filter's reset state; ARG1 is ignored; an operand that fails the decode checks traps with
code 3. -/
def Obligations.FilterInitSeedsOneFilter : Prop :=
  (∀ k a0 a1, decode ⟨0#20 ++ (k : Channel) ++ 0x11#8, a0, a1⟩ = .ok (.filterInit k a0)) ∧
  ∀ (s : State) (k : Channel) (v : Word), s.fault.halted = false →
    (¬ (k.toNat < s.cfg.filters.length ∧ v.toNat < 2 ^ s.cfg.sampleWidth) →
      exec (.filterInit k v) s = .next (s.afterTrap 3)) ∧
    ∀ p : FilterParams, s.cfg.filters[k.toNat]? = some p → k.toNat < s.filters.length →
      v.toNat < 2 ^ s.cfg.sampleWidth →
      exec (.filterInit k v) s = .next { s with
        filters := s.filters.set k.toNat
          { hist := List.replicate p.capacity (v.setWidth 16), histIdx := 0, sticky := v.setWidth 16 }
        response := some ⟨0, true⟩ } ∧
      (v = 0 → (State.powerUp s.cfg).filters[k.toNat]? =
        some { hist := List.replicate p.capacity (v.setWidth 16), histIdx := 0, sticky := v.setWidth 16 })

/-- 43_sensor_filter.md R137: the filter has no error path: every FILTER_READ whose channel and sample pass decode completes with
`OK = 1`, without a trap. -/
def Obligations.FilterReadHasNoErrorPath : Prop :=
  ∀ (s : State) (k : Channel) (v : Word), s.fault.halted = false → Memory.wf s.cfg s.filters = true →
    k.toNat < s.cfg.filters.length → v.toNat < 2 ^ s.cfg.sampleWidth →
    ∃ (t : State) (r : Word), exec (.filterRead k v) s = .next t ∧ t.response = some ⟨r, true⟩ ∧
      t.fault = s.fault ∧ t.trace = s.trace

/-- 43_sensor_filter.md R133: the sum of a ring of SW-bit samples is at most `CAPACITY * (2^SW - 1)`, below `2^32`, and its mean is
below `2^SW`. -/
def Obligations.HistoryMeanFits : Prop :=
  ∀ (c : Config) (p : FilterParams) (hist : List Sample), p ∈ c.filters → hist.length = p.capacity →
    (∀ v ∈ hist, v.toNat < 2 ^ c.sampleWidth) →
    historyMean p hist = (hist.map BitVec.toNat).sum / p.capacity ∧
    (hist.map BitVec.toNat).sum ≤ p.capacity * (2 ^ c.sampleWidth - 1) ∧
    p.capacity * (2 ^ c.sampleWidth - 1) < 2 ^ 32 ∧ historyMean p hist < 2 ^ c.sampleWidth

/-- The output stays in `[MIN_OUTPUT, MAX_OUTPUT]`, rises with the value read out, and is `MIN_OUTPUT` at or below `MIN_CLAMP` and
`MAX_OUTPUT` at or above `MAX_CLAMP`; the product fits 64 bits (43_sensor_filter.md R135, R136, R138 (d)). -/
def Obligations.RemapCoversTheOutputRange : Prop :=
  ∀ (c : Config) (p : FilterParams), p ∈ c.filters → ∀ v w : Nat,
    let out := fun x => remap c p (clampValue p x)
    c.minOutput ≤ out v ∧ out v ≤ c.maxOutput ∧ (v ≤ w → out v ≤ out w) ∧
    (v ≤ p.minClamp → out v = c.minOutput) ∧ (p.maxClamp ≤ v → out v = c.maxOutput) ∧
    (clampValue p v - p.minClamp) * (c.maxOutput - c.minOutput) < 2 ^ 64

/-- 43_sensor_filter.md R138 (a): after at least `CAPACITY` reads of `v`, from any state whose history memory has its form, every entry
is `v` and the mean is exactly `v`. -/
def Obligations.ConstantSamplesGiveTheirMean : Prop :=
  ∀ (s : State) (k : Channel) (p : FilterParams) (v : Word) (n : Nat), s.fault.halted = false →
    Memory.wf s.cfg s.filters = true → s.cfg.filters[k.toNat]? = some p → v.toNat < 2 ^ s.cfg.sampleWidth →
    p.capacity ≤ n →
    ∃ (t : State) (f : FilterState), runSteps (readsOf k (List.replicate n v)) s = .next t ∧
      t.filters[k.toNat]? = some f ∧ f.hist = List.replicate p.capacity (v.setWidth 16) ∧
      historyMean p f.hist = v.toNat

/-- 43_sensor_filter.md R138 (b): after `FILTER_INIT k, a`, any sequence of samples each `a` or `b`, with `|a - b|` below `STICKY_RANGE`,
leaves `STICKY` at `a`. -/
def Obligations.SmallAlternationsNeverMoveSticky : Prop :=
  ∀ (s s1 : State) (k : Channel) (p : FilterParams) (a b : Word) (samples : List Word),
    s.fault.halted = false → s.cfg.filters[k.toNat]? = some p → Memory.wf s.cfg s.filters = true →
    a.toNat < 2 ^ s.cfg.sampleWidth → b.toNat < 2 ^ s.cfg.sampleWidth →
    |(a.toNat : Int) - (b.toNat : Int)| < (p.stickyRange : Int) →
    (∀ v ∈ samples, v = a ∨ v = b) → exec (.filterInit k a) s = .next s1 →
    ∃ (t : State) (f : FilterState), runSteps (readsOf k samples) s1 = .next t ∧
      t.filters[k.toNat]? = some f ∧ f.sticky = a.setWidth 16

/-- The filter commands and the rest of the block do not meet (20_memory.md R57, 00_scope.md R5 (d)): a filter command's effect on the
filters and its response depend on nothing but the configuration and the filters, and it leaves ramp and timer alone. -/
def Obligations.FilterCommandsSeeOnlyFilters : Prop :=
  ∀ (i : Instr) (s u : State), ((∃ k v, i = .filterRead k v) ∨ ∃ k v, i = .filterInit k v) →
    i.wf s.cfg = true → s.cfg = u.cfg → s.filters = u.filters → Memory.wf s.cfg s.filters = true →
    s.fault.halted = false → u.fault.halted = false →
    ∃ s' u' : State, exec i s = .next s' ∧ exec i u = .next u' ∧ s'.filters = u'.filters ∧
      s'.response = u'.response ∧ s'.ramp = s.ramp ∧ s'.timer = s.timer ∧ s'.fault = s.fault ∧
      s'.trace = s.trace ∧ ∀ (k : Channel) (v : Word) (j : Nat), (i = .filterRead k v ∨ i = .filterInit k v) →
        j ≠ k.toNat → s'.filters[j]? = s.filters[j]?

/-- No TICK, no SERVICE and no HOST step but a well-formed filter command reads or writes a filter (20_memory.md R57): a transaction
that is illegal or another command's included. With other filters in place the step is the same, and it leaves them as they were.
RESET, which writes every filter (70_reset_and_hazards.md R160), is not of these steps. -/
def Obligations.TickServiceAndNonFilterHostStepsNeverTouchFilters : Prop :=
  ∀ (a : AgentStep) (s t : State) (filters : List FilterState), a ≠ .reset →
    (∀ k v, Issues a (.filterRead k v) → (Instr.filterRead k v).wf s.cfg = false) →
    (∀ k v, Issues a (.filterInit k v) → (Instr.filterInit k v).wf s.cfg = false) →
    agentStep a s = .next t →
    t.filters = s.filters ∧ agentStep a { s with filters := filters } = .next { t with filters := filters }

/-! ## Whole-machine rules -/

/-- The "written by" columns of 10_state.md R24, R25, R26 and R27 (R20): outside RESET each field changes only in the steps its row
lists; `HALTED` is never cleared, and the configuration never changes. -/
def Obligations.FieldsChangeOnlyWhereListed : Prop :=
  ∀ (a : AgentStep) (s t : State), agentStep a s = .next t → a ≠ .reset →
    (t.ramp.curFreq ≠ s.ramp.curFreq → (∃ f, Issues a (.setFreq f)) ∨ a = .service) ∧
    (t.ramp.rampEn ≠ s.ramp.rampEn → (∃ f, Issues a (.setFreq f)) ∨ (∃ f r, Issues a (.setRamp f r)) ∨
      Issues a .stop ∨ a = .service) ∧
    (t.ramp.target ≠ s.ramp.target ∨ t.ramp.stepHz ≠ s.ramp.stepHz ∨ t.ramp.periodTicks ≠ s.ramp.periodTicks →
      ∃ f r, Issues a (.setRamp f r)) ∧
    (t.ramp.accTicks ≠ s.ramp.accTicks → (∃ f r, Issues a (.setRamp f r)) ∨ a = .service) ∧
    (t.ramp.ovfTicks ≠ s.ramp.ovfTicks → a = .service ∨ Issues a .popOvf) ∧
    (t.timer.cmp ≠ s.timer.cmp → Issues a .start ∨ (∃ f, Issues a (.setFreq f)) ∨ a = .service) ∧
    (t.timer.counter ≠ s.timer.counter → Issues a .start ∨ a = .tick ∨ a = .service) ∧
    (t.timer.running ≠ s.timer.running ∨ t.timer.ie ≠ s.timer.ie → Issues a .start ∨ Issues a .stop) ∧
    (t.timer.pending ≠ s.timer.pending → a = .tick ∨ a = .service ∨ Issues a .start ∨ Issues a .stop) ∧
    (t.timer.matchCmp ≠ s.timer.matchCmp → a = .tick) ∧
    (t.filters ≠ s.filters → (∃ k v, Issues a (.filterRead k v)) ∨ ∃ k v, Issues a (.filterInit k v)) ∧
    (t.fault ≠ s.fault → s.fault.halted = false ∧ t.fault.halted = true) ∧
    t.cfg = s.cfg ∧ t.schedule = s.schedule

/-- The output trace (30_encoding.md R62, 42_timer_sequencer.md R117, 60_exceptions.md R140): a step adds a PULSE exactly if it is a
SERVICE, then a TRAP with the code exactly if it halts the block, and nothing else; RESET adds nothing. -/
def Obligations.TraceGrowsByPulseAndTrap : Prop :=
  ∀ (a : AgentStep) (s t : State), agentStep a s = .next t →
    t.trace = s.trace ++ (if a = .service then [.pulse] else []) ++
      (if t.fault.halted = true then [.trap t.fault.errCode] else [])

/-- 10_state.md R29: the ramp state machine. It leaves Disabled only by SET_RAMP; it leaves Ramping only by SET_FREQ, STOP, a SERVICE that
reaches the target exactly, or RESET; each of these commands leads where it says; the same SET_RAMP while Ramping keeps
`ACC_TICKS`; a trap leaves `RAMP_EN` as it was. -/
def Obligations.RampStateMachine : Prop :=
  ∀ (a : AgentStep) (s t : State), agentStep a s = .next t →
    (s.ramp.rampEn = false → t.ramp.rampEn = true → ∃ f r, Issues a (.setRamp f r)) ∧
    (s.ramp.rampEn = true → t.ramp.rampEn = false → (∃ f, Issues a (.setFreq f)) ∨ Issues a .stop ∨ a = .reset ∨
      (a = .service ∧ t.ramp.curFreq = s.ramp.target)) ∧
    (t.fault.halted = true → t.ramp.rampEn = s.ramp.rampEn) ∧
    (t.fault.halted = false → (∀ f r, Issues a (.setRamp f r) → t.ramp.rampEn = true ∧
      (s.ramp.rampEn = true → t.ramp.target = s.ramp.target → t.ramp.stepHz = s.ramp.stepHz →
        t.ramp.periodTicks = s.ramp.periodTicks → t.ramp.accTicks = s.ramp.accTicks)) ∧
      (∀ f, Issues a (.setFreq f) → t.ramp.rampEn = false) ∧ (Issues a .stop → t.ramp.rampEn = false))

/-- 60_exceptions.md R140, R150 and 10_state.md R22: in the halted state HOST, TICK and SERVICE have no step, whatever the transaction, and RESET
leaves it (that a step with none is a fault of its own name is the model's choice, log 9). -/
def Obligations.HaltedIsLeftOnlyByReset : Prop :=
  ∀ s : State, s.fault.halted = true →
    (∀ i, exec i s = .fault .halted) ∧ (∀ a, a ≠ .reset → agentStep a s = .fault .halted) ∧
    ∃ t, agentStep .reset s = .next t ∧ t.fault.halted = false

/-- 70_reset_and_hazards.md R160: RESET has a step in every state, sets every field of the block to its reset value (10_state.md R34),
leaves the configuration and the output trace, and emits nothing; power-up is a RESET. -/
def Obligations.ResetRestoresEveryField : Prop :=
  (∀ s : State, ∃ t, agentStep .reset s = .next t ∧
    t.ramp =
      { curFreq := 0, rampEn := false, target := 0, stepHz := 0, periodTicks := 0, accTicks := 0, ovfTicks := 0 } ∧
    t.timer = { cmp := 0, counter := 0, running := false, ie := false, pending := false, matchCmp := 0 } ∧
    t.fault = { halted := false, errCode := 0 } ∧
    t.filters = s.cfg.filters.map (fun p => { hist := List.replicate p.capacity 0, histIdx := 0, sticky := 0 }) ∧
    t.cfg = s.cfg ∧ t.trace = s.trace) ∧
  ∀ c : Config, agentStep .reset (State.powerUp c) = .next (State.powerUp c)

/-- 70_reset_and_hazards.md R161: right after reset only HOST and RESET have enabled steps. -/
def Obligations.AfterResetOnlyHostAndResetAreEnabled : Prop :=
  ∀ s t : State, agentStep .reset s = .next t →
    agentStep .tick t = .fault (.notEnabled .tick) ∧ agentStep .service t = .fault (.notEnabled .service) ∧
    (∀ x, ∃ u, agentStep (.host x) t = .next u) ∧ ∃ u, agentStep .reset t = .next u

/-! ## Invariants -/

/-- The invariant holds at power-up in every configuration, whatever is scheduled. -/
def Obligations.InvariantHoldsAtPowerUp : Prop :=
  ∀ (c : Config) (schedule : List AgentStep), Inv { State.powerUp c with schedule := schedule }

/-- Every step keeps the invariant. -/
def Obligations.EveryStepKeepsTheInvariant : Prop :=
  ∀ s t : State, Inv s → step s = .next t → Inv t

/-- No step of a state with the invariant stops the machine, unless it is a step of an agent that has none there
(10_state.md R22): the stops on a zero period, on a missing history entry or by refusal do not come up. -/
def Obligations.OnlyDisabledAgentsStop : Prop :=
  ∀ s : State, Inv s → (∃ t, step s = .next t) ∨
    (s.fault.halted = true ∧ step s = .fault .halted) ∨
    (s.timer.running = false ∧ step s = .fault (.notEnabled .tick)) ∨
    ((s.timer.pending = false ∨ s.timer.ie = false) ∧ step s = .fault (.notEnabled .service))

/-- 10_state.md R30, R31: in every reachable state either no frequency is committed and `CUR_FREQ` and `CMP` are 0, or `CMP` is
`ticksForFrequency(CUR_FREQ)` and a valid compare value. Once a frequency is committed only RESET takes it back to the first case,
and only SET_FREQ leads out of that. -/
def Obligations.CompareAlwaysMatchesTheFrequency : Prop :=
  (∀ s : State, Reachable s → (s.ramp.curFreq = 0 ∧ s.timer.cmp = 0) ∨
    (ticksForFrequency s.cfg s.ramp.curFreq.toNat = some (s.timer.cmp.toNat : Int) ∧
      1 ≤ s.timer.cmp.toNat ∧ s.timer.cmp.toNat ≤ 2 ^ s.cfg.compareWidth - 2)) ∧
  (∀ (a : AgentStep) (s t : State), agentStep a s = .next t → a ≠ .reset → s.ramp.curFreq ≠ 0 → t.ramp.curFreq ≠ 0) ∧
  (∀ (a : AgentStep) (s t : State), Reachable s → agentStep a s = .next t → s.ramp.curFreq = 0 → t.ramp.curFreq ≠ 0 →
    ∃ f, Issues a (.setFreq f))

/-- 10_state.md R32: `IE = RUNNING` in every reachable state; START sets both, STOP and RESET clear both, nothing else writes either
and a trap writes neither. -/
def Obligations.InterruptEnableEqualsRunning : Prop :=
  (∀ s : State, Reachable s → s.timer.ie = s.timer.running) ∧
  ∀ (a : AgentStep) (s t : State), agentStep a s = .next t →
    (t.fault.halted = false → Issues a .start → t.timer.ie = true ∧ t.timer.running = true) ∧
    (Issues a .stop ∨ a = .reset → t.timer.ie = false ∧ t.timer.running = false) ∧
    (t.fault.halted = true ∨ (¬ Issues a .start ∧ ¬ Issues a .stop ∧ a ≠ .reset) →
      t.timer.ie = s.timer.ie ∧ t.timer.running = s.timer.running)

/-- 10_state.md R33: in every reachable state with `RAMP_EN = 1` the target has a valid compare value, `STEP_HZ` is at least 1,
`PERIOD_TICKS` is in `[CMP_MIN, CMP_MAX]`, `ACC_TICKS` is below it, and the sum SERVICE forms is below `2^(W+1)`, within 32 bits. -/
def Obligations.ArmedRampHasLegalParameters : Prop :=
  ∀ s : State, Reachable s → s.ramp.rampEn = true →
    FrequencyOk s.cfg s.ramp.target.toNat ∧ 1 ≤ s.ramp.stepHz.toNat ∧
    s.cfg.cmpMin ≤ s.ramp.periodTicks.toNat ∧ s.ramp.periodTicks.toNat ≤ s.cfg.cmpMax ∧
    s.ramp.accTicks.toNat < s.ramp.periodTicks.toNat ∧
    s.ramp.accTicks.toNat + s.timer.matchCmp.toNat < 2 ^ (s.cfg.compareWidth + 1) ∧
    2 ^ (s.cfg.compareWidth + 1) ≤ 2 ^ 32
end

