-- ==== Sys2Proof/Laws/Config.lean ====
section
/-!
SUPPORT. What the legality of a configuration gives (00_scope.md R7 to R11), one lemma for each bound.
-/

namespace Sys2Proof

variable (c : Config)

/-- The legality check, read as its conditions (00_scope.md R7, R9). -/
theorem Params.legal_iff (p : Params) : p.legal = true ↔
    (1 ≤ p.clockHz ∧ 1 ≤ p.prescaler ∧ 2 ≤ p.compareWidth ∧ p.compareWidth ≤ 31 ∧
      1 ≤ p.safetyFloorNs ∧ 1 ≤ p.numFilters ∧ p.numFilters ≤ 16 ∧
      1 ≤ p.sampleWidth ∧ p.sampleWidth ≤ 16 ∧
      p.minOutput ≤ p.maxOutput ∧ p.maxOutput < 2 ^ 32 ∧ p.tickNs ≠ 0) ∧
    ∀ f ∈ p.filters, f.legal = true := by
  rw [Params.legal, Bool.and_eq_true, decide_eq_true_iff, List.all_eq_true]

theorem FilterParams.legal_iff (f : FilterParams) : f.legal = true ↔
    1 ≤ f.capacity ∧ f.capacity ≤ 65536 ∧ f.stickyRange < 2 ^ 32 ∧
      f.minClamp < f.maxClamp ∧ f.maxClamp < 2 ^ 32 := by
  rw [FilterParams.legal, decide_eq_true_iff]

theorem Config.compareWidth_ge : 2 ≤ c.compareWidth := ((Params.legal_iff _).1 c.legal).1.2.2.1

theorem Config.compareWidth_le : c.compareWidth ≤ 31 := ((Params.legal_iff _).1 c.legal).1.2.2.2.1

theorem Config.safetyFloorNs_pos : 1 ≤ c.safetyFloorNs := ((Params.legal_iff _).1 c.legal).1.2.2.2.2.1

theorem Config.numFilters_le : c.filters.length ≤ 16 := ((Params.legal_iff _).1 c.legal).1.2.2.2.2.2.2.1

theorem Config.sampleWidth_le : c.sampleWidth ≤ 16 := ((Params.legal_iff _).1 c.legal).1.2.2.2.2.2.2.2.2.1

theorem Config.minOutput_le : c.minOutput ≤ c.maxOutput := ((Params.legal_iff _).1 c.legal).1.2.2.2.2.2.2.2.2.2.1

theorem Config.maxOutput_lt : c.maxOutput < 2 ^ 32 := ((Params.legal_iff _).1 c.legal).1.2.2.2.2.2.2.2.2.2.2.1

theorem Config.tickNs_pos : 0 < c.tickNs :=
  Nat.pos_of_ne_zero ((Params.legal_iff _).1 c.legal).1.2.2.2.2.2.2.2.2.2.2.2

/-- The bounds of a filter's parameters in a legal configuration. -/
theorem Config.filter_legal {c : Config} {p : FilterParams} (h : p ∈ c.filters) :
    1 ≤ p.capacity ∧ p.capacity ≤ 65536 ∧ p.stickyRange < 2 ^ 32 ∧
      p.minClamp < p.maxClamp ∧ p.maxClamp < 2 ^ 32 :=
  (FilterParams.legal_iff p).1 (((Params.legal_iff _).1 c.legal).2 p h)

theorem Config.filter_legal_of_get {c : Config} {p : FilterParams} {k : Nat} (h : c.filters[k]? = some p) :
    1 ≤ p.capacity ∧ p.capacity ≤ 65536 ∧ p.stickyRange < 2 ^ 32 ∧
      p.minClamp < p.maxClamp ∧ p.maxClamp < 2 ^ 32 :=
  Config.filter_legal (List.mem_of_getElem? h)

/-- `4 <= 2^W <= 2^31` (00_scope.md R7). -/
theorem Config.two_pow_width : 4 ≤ 2 ^ c.compareWidth ∧ 2 ^ c.compareWidth ≤ 2147483648 :=
  ⟨by simpa using Nat.pow_le_pow_right (n := 2) (by decide) c.compareWidth_ge,
    by simpa using Nat.pow_le_pow_right (n := 2) (by decide) c.compareWidth_le⟩

/-- `1 <= 2^SW <= 2^16` (00_scope.md R7). -/
theorem Config.two_pow_sample : 1 ≤ 2 ^ c.sampleWidth ∧ 2 ^ c.sampleWidth ≤ 65536 :=
  ⟨Nat.one_le_two_pow, by simpa using Nat.pow_le_pow_right (n := 2) (by decide) c.sampleWidth_le⟩

/-- `CMP_MAX = 2^W - 2` (00_scope.md R10, R11). -/
theorem Config.cmpMax_eq : c.cmpMax = 2 ^ c.compareWidth - 2 := by
  simp only [Params.cmpMax, Params.regMax]
  omega

end Sys2Proof
end

