-- ==== Sys2Proof/Laws/Converter.lean ====
section
/-!
SUPPORT. The converter's functions (40_converter.md): when a value is valid, what compare value a frequency has, and that a
compare value fits its register.
-/

namespace Sys2Proof.Machine

variable {c : Config}

/-- The range check over the integers (40_converter.md R80). -/
theorem valid_iff {v : Int} : valid c v = true ↔ 1 ≤ v ∧ v ≤ 2 ^ c.compareWidth - 2 := by
  have h := c.two_pow_width
  have e : ((c.cmpMax : Nat) : Int) = 2 ^ c.compareWidth - 2 := by
    rw [c.cmpMax_eq, Nat.cast_sub (by omega)]; norm_cast
  rw [valid, decide_eq_true_iff, e]
  rfl

theorem valid_natCast_iff {n : Nat} : valid c (n : Int) = true ↔ 1 ≤ n ∧ n ≤ 2 ^ c.compareWidth - 2 := by
  have h := c.two_pow_width
  have e : ((2 ^ c.compareWidth : Nat) : Int) = 2 ^ c.compareWidth := by norm_cast
  rw [valid_iff, ← e]
  omega

/-- A frequency is in range when its period is 2 to `2^W - 1` ticks (40_converter.md R80, R82). -/
theorem frequencyOk_iff {f : Nat} : FrequencyOk c f ↔
    f ≠ 0 ∧ 2 ≤ periodTicksOf c f ∧ periodTicksOf c f ≤ 2 ^ c.compareWidth - 1 := by
  have h := c.two_pow_width
  have e : ((2 ^ c.compareWidth : Nat) : Int) = 2 ^ c.compareWidth := by norm_cast
  unfold FrequencyOk
  rw [← e]
  omega

/-- The compare value of a frequency: one less than the ticks of its period, where that is in range
(40_converter.md R82). -/
theorem compareValue?_eq (c : Config) (f : Nat) :
    compareValue? c f = if FrequencyOk c f then some (periodTicksOf c f - 1) else none := by
  unfold compareValue? ticksForFrequency ticksForPeriod
  by_cases hf : f = 0
  · simp [hf]
  · simp only [hf, if_false]
    by_cases hv : valid c ((periodTicksOf c f : Int) - 1) = true
    · have h := valid_iff.1 hv
      rw [if_pos hv, if_pos ⟨hf, h⟩]
      show some (((periodTicksOf c f : Nat) : Int) - 1).toNat = some (periodTicksOf c f - 1)
      congr 1
      generalize periodTicksOf c f = t at h ⊢
      omega
    · rw [if_neg hv, if_neg fun h => hv (valid_iff.2 h.2)]

theorem compareValue?_of_ok {f : Nat} (h : FrequencyOk c f) :
    compareValue? c f = some (periodTicksOf c f - 1) := by rw [compareValue?_eq, if_pos h]

theorem compareValue?_of_not_ok {f : Nat} (h : ¬ FrequencyOk c f) : compareValue? c f = none := by
  rw [compareValue?_eq, if_neg h]

/-- What the compare value of a frequency is, where it has one: it fits its register (10_state.md R31). -/
theorem compareValue?_some {f v : Nat} (h : compareValue? c f = some v) :
    FrequencyOk c f ∧ v + 1 = periodTicksOf c f ∧ 1 ≤ v ∧ v ≤ 2 ^ c.compareWidth - 2 ∧ v < 2 ^ 32 := by
  have hw := c.two_pow_width
  rw [compareValue?_eq] at h
  split at h
  · rename_i hok
    obtain ⟨_, h2, h3⟩ := frequencyOk_iff.1 hok
    have hv : periodTicksOf c f - 1 = v := Option.some.inj h
    exact ⟨hok, by omega⟩
  · cases h

/-- The period in ticks does not increase with the frequency (40_converter.md R83). -/
theorem periodTicksOf_antitone {f g : Nat} (hf : f ≠ 0) (h : f ≤ g) : periodTicksOf c g ≤ periodTicksOf c f :=
  Nat.div_le_div_right (Nat.div_le_div_left h (Nat.pos_of_ne_zero hf))

/-- A frequency between two frequencies in range is in range (40_converter.md R83). -/
theorem frequencyOk_between {f g h : Nat} (hf : FrequencyOk c f) (hh : FrequencyOk c h) (h1 : f ≤ g) (h2 : g ≤ h) :
    FrequencyOk c g := by
  have hf' := frequencyOk_iff.1 hf
  have hh' := frequencyOk_iff.1 hh
  have hg : g ≠ 0 := by omega
  have a := periodTicksOf_antitone (c := c) hf'.1 h1
  have b := periodTicksOf_antitone (c := c) hg h2
  exact frequencyOk_iff.2 ⟨hg, by omega, by omega⟩

/-- A register value below `2^32` is read back as it was written. -/
theorem toNat_ofNat_of_lt {n : Nat} (h : n < 2 ^ 32) : (BitVec.ofNat 32 n).toNat = n := by
  rw [BitVec.toNat_ofNat, Nat.mod_eq_of_lt h]

end Sys2Proof.Machine
end

