-- ==== Sys2Proof/Laws/Encoding.lean ====
section
/-!
SUPPORT. The command word's fields and the encoder (30_encoding.md R63 to R65), and the bus bytes of a port word (20_memory.md R47).
-/

namespace Sys2Proof

/-- Bit by bit: the opcode, then the channel, then zeros (30_encoding.md R63). -/
theorem getLsbD_commandWord (ch : Channel) (opc : Byte) (i : Nat) : (commandWord ch opc).getLsbD i =
    if i < 8 then opc.getLsbD i else if i - 8 < 4 then ch.getLsbD (i - 8) else false := by
  show BitVec.getLsbD (w := 20 + 4 + 8) (0#20 ++ ch ++ opc) i = _
  rw [BitVec.getLsbD_append, BitVec.getLsbD_append, BitVec.getLsbD_zero]

@[simp] theorem opcField_commandWord (ch : Channel) (opc : Byte) : opcField (commandWord ch opc) = opc := by
  apply BitVec.eq_of_getLsbD_eq
  intro i hi
  simp [opcField, getLsbD_commandWord, hi]

@[simp] theorem chField_commandWord (ch : Channel) (opc : Byte) : chField (commandWord ch opc) = ch := by
  apply BitVec.eq_of_getLsbD_eq
  intro i hi
  simp [chField, getLsbD_commandWord, hi]

@[simp] theorem rsvField_commandWord (ch : Channel) (opc : Byte) : rsvField (commandWord ch opc) = 0 := by
  apply BitVec.eq_of_getLsbD_eq
  intro i _
  have h8 : ¬ 12 + i < 8 := by omega
  have h4 : ¬ 12 + i - 8 < 4 := by omega
  simp [rsvField, getLsbD_commandWord, h8, h4]

/-- A command word with no reserved bit set is made of its two fields (30_encoding.md R63). -/
theorem commandWord_fields {w : Word} (h : rsvField w = 0) : commandWord (chField w) (opcField w) = w := by
  apply BitVec.eq_of_getLsbD_eq
  intro i hi
  rw [getLsbD_commandWord]
  by_cases h8 : i < 8
  · simp [opcField, h8]
  · by_cases h12 : i < 12
    · have e : 8 + (i - 8) = i := by omega
      have h4 : i - 8 < 4 := by omega
      simp [chField, h8, h4, e]
    · have e : 12 + (i - 12) = i := by omega
      have h4 : ¬ i - 8 < 4 := by omega
      have hr := congrArg (fun v : BitVec 20 => v.getLsbD (i - 12)) h
      simp [rsvField, e] at hr
      simp [h8, h4]
      rw [hr (by omega)]

/-- The fields of a word as numbers (30_encoding.md R63). -/
theorem opcField_toNat (w : Word) : (opcField w).toNat = w.toNat % 256 := by
  simp [opcField]

theorem chField_toNat (w : Word) : (chField w).toNat = w.toNat / 256 % 16 := by
  simp [chField, Nat.shiftRight_eq_div_pow]

theorem rsvField_eq_zero_iff (w : Word) : rsvField w = 0 ↔ w.toNat / 4096 = 0 := by
  have h := w.isLt
  rw [← BitVec.toNat_inj]
  simp [rsvField, Nat.shiftRight_eq_div_pow]
  omega

/-- A byte order's bytes make the word again (20_memory.md R47). -/
theorem ofBusBytes_busBytes (o : ByteOrder) (w : Word) : ofBusBytes o (busBytes o w) = some w := by
  have e : w.extractLsb' 24 8 ++ w.extractLsb' 16 8 ++ w.extractLsb' 8 8 ++ w.extractLsb' 0 8 = w := by
    apply BitVec.eq_of_getLsbD_eq
    intro i hi
    show BitVec.getLsbD (w := 8 + 8 + 8 + 8) _ i = _
    rw [BitVec.getLsbD_append, BitVec.getLsbD_append, BitVec.getLsbD_append]
    by_cases h8 : i < 8
    · simp [h8]
    · by_cases h16 : i - 8 < 8
      · have : 8 + (i - 8) = i := by omega
        simp [h8, h16, this]
      · by_cases h24 : i - 8 - 8 < 8
        · have : 16 + (i - 8 - 8) = i := by omega
          simp [h8, h16, h24, this]
        · have h32 : i - 8 - 8 - 8 < 8 := by omega
          have : 24 + (i - 8 - 8 - 8) = i := by omega
          simp [h8, h16, h24, h32, this]
  cases o
  · exact congrArg some e
  · exact congrArg some e

end Sys2Proof
end

