-- ==== Sys2Proof/Laws/State.lean ====
section
/-!
SUPPORT. What each update of a state does to each field, and each update of the timer registers and of RampState to each of
theirs: one lemma a field, true by unfolding the update once.
-/

namespace Sys2Proof.Machine

variable (s : State)

@[simp] theorem State.emit_cfg (e : Event) : (State.emit e s).cfg = s.cfg := rfl
@[simp] theorem State.emit_ramp (e : Event) : (State.emit e s).ramp = s.ramp := rfl
@[simp] theorem State.emit_timer (e : Event) : (State.emit e s).timer = s.timer := rfl
@[simp] theorem State.emit_fault (e : Event) : (State.emit e s).fault = s.fault := rfl
@[simp] theorem State.emit_filters (e : Event) : (State.emit e s).filters = s.filters := rfl
@[simp] theorem State.emit_schedule (e : Event) : (State.emit e s).schedule = s.schedule := rfl
@[simp] theorem State.emit_trace (e : Event) : (State.emit e s).trace = s.trace ++ [e] := rfl
@[simp] theorem State.emit_response (e : Event) : (State.emit e s).response = s.response := rfl

@[simp] theorem State.responding_cfg (result : Word) (ok : Bool) : (State.responding result ok s).cfg = s.cfg := rfl
@[simp] theorem State.responding_ramp (result : Word) (ok : Bool) : (State.responding result ok s).ramp = s.ramp := rfl
@[simp] theorem State.responding_timer (result : Word) (ok : Bool) : (State.responding result ok s).timer = s.timer := rfl
@[simp] theorem State.responding_fault (result : Word) (ok : Bool) : (State.responding result ok s).fault = s.fault := rfl
@[simp] theorem State.responding_filters (result : Word) (ok : Bool) : (State.responding result ok s).filters = s.filters := rfl
@[simp] theorem State.responding_schedule (result : Word) (ok : Bool) : (State.responding result ok s).schedule = s.schedule := rfl
@[simp] theorem State.responding_trace (result : Word) (ok : Bool) : (State.responding result ok s).trace = s.trace := rfl
@[simp] theorem State.responding_response (result : Word) (ok : Bool) : (State.responding result ok s).response = some { result := result, ok := ok } := rfl

@[simp] theorem State.trapped_cfg (code : TrapCode) : (State.trapped code s).cfg = s.cfg := rfl
@[simp] theorem State.trapped_ramp (code : TrapCode) : (State.trapped code s).ramp = s.ramp := rfl
@[simp] theorem State.trapped_timer (code : TrapCode) : (State.trapped code s).timer = s.timer := rfl
@[simp] theorem State.trapped_fault (code : TrapCode) : (State.trapped code s).fault = { halted := true, errCode := trapNumber code } := rfl
@[simp] theorem State.trapped_filters (code : TrapCode) : (State.trapped code s).filters = s.filters := rfl
@[simp] theorem State.trapped_schedule (code : TrapCode) : (State.trapped code s).schedule = s.schedule := rfl
@[simp] theorem State.trapped_trace (code : TrapCode) : (State.trapped code s).trace = s.trace ++ [.trap (trapNumber code)] := rfl
@[simp] theorem State.trapped_response (code : TrapCode) : (State.trapped code s).response = none := rfl

@[simp] theorem State.resetBlock_cfg : (State.resetBlock s).cfg = s.cfg := rfl
@[simp] theorem State.resetBlock_ramp : (State.resetBlock s).ramp = .reset := rfl
@[simp] theorem State.resetBlock_timer : (State.resetBlock s).timer = .reset := rfl
@[simp] theorem State.resetBlock_fault : (State.resetBlock s).fault = .reset := rfl
@[simp] theorem State.resetBlock_filters : (State.resetBlock s).filters = s.cfg.filters.map .reset := rfl
@[simp] theorem State.resetBlock_schedule : (State.resetBlock s).schedule = s.schedule := rfl
@[simp] theorem State.resetBlock_trace : (State.resetBlock s).trace = s.trace := rfl
@[simp] theorem State.resetBlock_response : (State.resetBlock s).response = s.response := rfl

@[simp] theorem State.setFilter_cfg (k : Nat) (f : FilterState) : (State.setFilter k f s).cfg = s.cfg := rfl
@[simp] theorem State.setFilter_ramp (k : Nat) (f : FilterState) : (State.setFilter k f s).ramp = s.ramp := rfl
@[simp] theorem State.setFilter_timer (k : Nat) (f : FilterState) : (State.setFilter k f s).timer = s.timer := rfl
@[simp] theorem State.setFilter_fault (k : Nat) (f : FilterState) : (State.setFilter k f s).fault = s.fault := rfl
@[simp] theorem State.setFilter_filters (k : Nat) (f : FilterState) : (State.setFilter k f s).filters = s.filters.set k f := rfl
@[simp] theorem State.setFilter_schedule (k : Nat) (f : FilterState) : (State.setFilter k f s).schedule = s.schedule := rfl
@[simp] theorem State.setFilter_trace (k : Nat) (f : FilterState) : (State.setFilter k f s).trace = s.trace := rfl
@[simp] theorem State.setFilter_response (k : Nat) (f : FilterState) : (State.setFilter k f s).response = s.response := rfl

@[simp] theorem State.popped_cfg (rest : List AgentStep) : (State.popped rest s).cfg = s.cfg := rfl
@[simp] theorem State.popped_ramp (rest : List AgentStep) : (State.popped rest s).ramp = s.ramp := rfl
@[simp] theorem State.popped_timer (rest : List AgentStep) : (State.popped rest s).timer = s.timer := rfl
@[simp] theorem State.popped_fault (rest : List AgentStep) : (State.popped rest s).fault = s.fault := rfl
@[simp] theorem State.popped_filters (rest : List AgentStep) : (State.popped rest s).filters = s.filters := rfl
@[simp] theorem State.popped_schedule (rest : List AgentStep) : (State.popped rest s).schedule = rest := rfl
@[simp] theorem State.popped_trace (rest : List AgentStep) : (State.popped rest s).trace = s.trace := rfl
@[simp] theorem State.popped_response (rest : List AgentStep) : (State.popped rest s).response = none := rfl

@[simp] theorem State.present_cfg (t : Transaction) : (State.present t s).cfg = s.cfg := rfl
@[simp] theorem State.present_ramp (t : Transaction) : (State.present t s).ramp = s.ramp := rfl
@[simp] theorem State.present_timer (t : Transaction) : (State.present t s).timer = s.timer := rfl
@[simp] theorem State.present_fault (t : Transaction) : (State.present t s).fault = s.fault := rfl
@[simp] theorem State.present_filters (t : Transaction) : (State.present t s).filters = s.filters := rfl
@[simp] theorem State.present_schedule (t : Transaction) : (State.present t s).schedule = .host t :: s.schedule := rfl
@[simp] theorem State.present_trace (t : Transaction) : (State.present t s).trace = s.trace := rfl
@[simp] theorem State.present_response (t : Transaction) : (State.present t s).response = s.response := rfl

@[simp] theorem pulse_cfg : (pulse s).cfg = s.cfg := rfl
@[simp] theorem pulse_ramp : (pulse s).ramp = s.ramp := rfl
@[simp] theorem pulse_timer : (pulse s).timer = { s.timer with pending := false } := rfl
@[simp] theorem pulse_fault : (pulse s).fault = s.fault := rfl
@[simp] theorem pulse_filters : (pulse s).filters = s.filters := rfl
@[simp] theorem pulse_schedule : (pulse s).schedule = s.schedule := rfl
@[simp] theorem pulse_trace : (pulse s).trace = s.trace ++ [.pulse] := rfl
@[simp] theorem pulse_response : (pulse s).response = s.response := rfl

/-! ## The timer registers -/

variable (t : TimerRegs)

@[simp] theorem TimerRegs.armPeriodic_cmp (c : Word) : (t.armPeriodic c).cmp = c := rfl
@[simp] theorem TimerRegs.armPeriodic_counter (c : Word) : (t.armPeriodic c).counter = 0 := rfl
@[simp] theorem TimerRegs.armPeriodic_running (c : Word) : (t.armPeriodic c).running = true := rfl
@[simp] theorem TimerRegs.armPeriodic_ie (c : Word) : (t.armPeriodic c).ie = true := rfl
@[simp] theorem TimerRegs.armPeriodic_pending (c : Word) : (t.armPeriodic c).pending = false := rfl
@[simp] theorem TimerRegs.armPeriodic_matchCmp (c : Word) : (t.armPeriodic c).matchCmp = t.matchCmp := rfl

@[simp] theorem TimerRegs.disable_cmp : (t.disable).cmp = t.cmp := rfl
@[simp] theorem TimerRegs.disable_counter : (t.disable).counter = t.counter := rfl
@[simp] theorem TimerRegs.disable_running : (t.disable).running = false := rfl
@[simp] theorem TimerRegs.disable_ie : (t.disable).ie = false := rfl
@[simp] theorem TimerRegs.disable_pending : (t.disable).pending = false := rfl
@[simp] theorem TimerRegs.disable_matchCmp : (t.disable).matchCmp = t.matchCmp := rfl

/-! ## RampState -/

variable (r : RampState) (target stepHz periodTicks : Word)

@[simp] theorem RampState.arm_curFreq : (r.arm target stepHz periodTicks).curFreq = r.curFreq := rfl
@[simp] theorem RampState.arm_rampEn : (r.arm target stepHz periodTicks).rampEn = true := rfl
@[simp] theorem RampState.arm_target : (r.arm target stepHz periodTicks).target = target := rfl
@[simp] theorem RampState.arm_stepHz : (r.arm target stepHz periodTicks).stepHz = stepHz := rfl
@[simp] theorem RampState.arm_periodTicks : (r.arm target stepHz periodTicks).periodTicks = periodTicks := rfl
@[simp] theorem RampState.arm_ovfTicks : (r.arm target stepHz periodTicks).ovfTicks = r.ovfTicks := rfl
@[simp] theorem RampState.arm_accTicks : (r.arm target stepHz periodTicks).accTicks =
    if r.rampEn = true ∧ r.target = target ∧ r.stepHz = stepHz ∧ r.periodTicks = periodTicks then r.accTicks else 0 := rfl

/-! ## The reset state -/

variable (c : Config)

@[simp] theorem State.powerUp_cfg : (State.powerUp c).cfg = c := rfl
@[simp] theorem State.powerUp_ramp : (State.powerUp c).ramp = .reset := rfl
@[simp] theorem State.powerUp_timer : (State.powerUp c).timer = .reset := rfl
@[simp] theorem State.powerUp_fault : (State.powerUp c).fault = .reset := rfl
@[simp] theorem State.powerUp_filters : (State.powerUp c).filters = c.filters.map .reset := rfl
@[simp] theorem State.powerUp_schedule : (State.powerUp c).schedule = [] := rfl
@[simp] theorem State.powerUp_trace : (State.powerUp c).trace = [] := rfl
@[simp] theorem State.powerUp_response : (State.powerUp c).response = none := rfl

/-- RESET is power-up in the same configuration, but for the model's own fields (70_reset_and_hazards.md R160). -/
theorem State.resetBlock_eq_powerUp :
    s.resetBlock = { State.powerUp s.cfg with schedule := s.schedule, trace := s.trace, response := s.response } := rfl

end Sys2Proof.Machine
end

