-- ==== Sys2Proof/Laws/Ops.lean ====
section
/-!
SUPPORT. What each shared operation can do, said once: the gate, the response, trap entry, the operands of a filter command, and
the history memory, whose form every operation keeps (20_memory.md R45).
-/

namespace Sys2Proof.Machine

/-- The gate lets a step through exactly while the block is not halted. -/
theorem whenRunning_next {s t : State} {r : Result} :
    whenRunning s r = .next t ↔ s.fault.halted = false ∧ r = .next t := by
  unfold whenRunning
  cases s.fault.halted <;> simp

theorem whenRunning_of_running {s : State} {r : Result} (h : s.fault.halted = false) : whenRunning s r = r := by
  simp [whenRunning, h]

theorem whenRunning_of_halted {s : State} {r : Result} (h : s.fault.halted = true) :
    whenRunning s r = .fault .halted := by
  simp [whenRunning, h]

theorem respond_next {w : Word} {ok : Bool} {s t : State} :
    respond w ok s = .next t ↔ t = s.responding w ok := by
  unfold respond
  constructor
  · intro h; cases h; rfl
  · rintro rfl; rfl

theorem trap_next {code : TrapCode} {s t : State} : trap code s = .next t ↔ t = s.trapped code := by
  unfold trap
  constructor
  · intro h; cases h; rfl
  · rintro rfl; rfl

/-- A trap's code is 1, 2 or 3 (60_exceptions.md R141). -/
theorem trapNumber_mem (code : TrapCode) : trapNumber code = 1 ∨ trapNumber code = 2 ∨ trapNumber code = 3 := by
  cases code <;> simp [trapNumber]

/-- The operands of a filter command, where they pass the checks (30_encoding.md R67 (c), (d)). -/
theorem filterOperand_some {c : Config} {k : Channel} {w : Word} {p : FilterParams} {v : Sample} :
    filterOperand c k w = some (p, v) ↔
      c.filters[k.toNat]? = some p ∧ w.toNat < 2 ^ c.sampleWidth ∧ v = w.setWidth 16 := by
  unfold filterOperand
  cases c.filters[k.toNat]? with
  | none => simp
  | some q =>
    by_cases h : w.toNat < 2 ^ c.sampleWidth
    · simp only [h, if_true, Option.some.injEq, Prod.mk.injEq, true_and]
      exact and_congr_right fun _ => eq_comm
    · simp [h]

/-- The operands fail the checks exactly where the command is not well-formed (30_encoding.md R66, R67). -/
theorem filterOperand_none {c : Config} {k : Channel} {w : Word} :
    filterOperand c k w = none ↔ ¬ (k.toNat < c.filters.length ∧ w.toNat < 2 ^ c.sampleWidth) := by
  unfold filterOperand
  by_cases hk : k.toNat < c.filters.length
  · rw [List.getElem?_eq_getElem hk]
    by_cases hw : w.toNat < 2 ^ c.sampleWidth <;> simp [hk, hw]
  · rw [List.getElem?_eq_none (by omega)]
    simp [hk]

/-- A sample operand is its 16-bit value (30_encoding.md R64). -/
theorem sample_toNat {c : Config} {w : Word} (h : w.toNat < 2 ^ c.sampleWidth) :
    (w.setWidth 16).toNat = w.toNat := by
  have := c.two_pow_sample
  rw [BitVec.toNat_setWidth, Nat.mod_eq_of_lt (by omega)]

/-! ## The history memory -/

/-- The form of one ring, read as its conditions. -/
theorem FilterState.wf_iff {w : Nat} {p : FilterParams} {f : FilterState} : f.wf w p = true ↔
    f.hist.length = p.capacity ∧ f.histIdx.toNat < p.capacity ∧ f.sticky.toNat < 2 ^ w ∧
      ∀ v ∈ f.hist, v.toNat < 2 ^ w := by
  rw [FilterState.wf, Bool.and_eq_true, decide_eq_true_iff, List.all_eq_true]
  simp only [decide_eq_true_iff, and_assoc]

/-- The form of the history memory, filter by filter (20_memory.md R45). -/
theorem Memory.wf_iff {c : Config} {fs : List FilterState} : Memory.wf c fs = true ↔
    fs.length = c.filters.length ∧
      ∀ (k : Nat) (p : FilterParams) (f : FilterState), c.filters[k]? = some p → fs[k]? = some f →
        f.wf c.sampleWidth p = true := by
  rw [Memory.wf, Bool.and_eq_true, decide_eq_true_iff, List.all_eq_true]
  refine and_congr_right fun _ => ⟨fun h k p f hp hf => ?_, fun h pf hpf => ?_⟩
  · exact h (p, f) (List.mem_of_getElem? (by rw [List.getElem?_zip_eq_some]; exact ⟨hp, hf⟩))
  · obtain ⟨k, hk⟩ := List.getElem?_of_mem hpf
    rw [List.getElem?_zip_eq_some] at hk
    exact h k pf.1 pf.2 hk.1 hk.2

/-- In a well-formed memory every filter of the configuration has its ring. -/
theorem Memory.wf_get {c : Config} {fs : List FilterState} (h : Memory.wf c fs = true) {k : Nat} {p : FilterParams}
    (hp : c.filters[k]? = some p) : ∃ f, fs[k]? = some f ∧ f.wf c.sampleWidth p = true := by
  obtain ⟨hl, hw⟩ := Memory.wf_iff.1 h
  have hk : k < fs.length := hl ▸ (List.getElem?_eq_some_iff.1 hp).1
  exact ⟨fs[k], List.getElem?_eq_getElem hk, hw k p fs[k] hp (List.getElem?_eq_getElem hk)⟩

/-- Putting a well-formed ring in place of filter `k` keeps the memory's form. -/
theorem Memory.wf_set {c : Config} {fs : List FilterState} (h : Memory.wf c fs = true) {k : Nat} {p : FilterParams}
    (hp : c.filters[k]? = some p) {f : FilterState} (hf : f.wf c.sampleWidth p = true) :
    Memory.wf c (fs.set k f) = true := by
  obtain ⟨hl, hw⟩ := Memory.wf_iff.1 h
  refine Memory.wf_iff.2 ⟨by rw [List.length_set, hl], fun j q g hq hg => ?_⟩
  rw [List.getElem?_set] at hg
  split at hg
  · rename_i hkj
    subst hkj
    rw [hp] at hq
    cases hq
    split at hg
    · cases hg; exact hf
    · cases hg
  · exact hw j q g hq hg

/-- The insertion runs exactly on a ring of its capacity with its index within (43_sensor_filter.md R132). -/
theorem insertSample_some {p : FilterParams} {v : Sample} {f g : FilterState} : insertSample p v f = some g ↔
    f.hist.length = p.capacity ∧ f.histIdx.toNat < p.capacity ∧
      g = { f with
        hist := f.hist.set f.histIdx.toNat v
        histIdx := BitVec.ofNat 16 ((f.histIdx.toNat + 1) % p.capacity) } := by
  unfold insertSample
  by_cases h : f.hist.length = p.capacity ∧ f.histIdx.toNat < p.capacity
  · simp only [h, and_self, if_true, Option.some.injEq, true_and]
    exact eq_comm
  · rw [if_neg h]
    constructor
    · intro h'; cases h'
    · exact fun h' => absurd ⟨h'.1, h'.2.1⟩ h

/-- The index after an insertion is the next slot, modulo the capacity (43_sensor_filter.md R132). -/
theorem nextIndex_toNat {n cap : Nat} (h0 : 1 ≤ cap) (h1 : cap ≤ 65536) :
    (BitVec.ofNat 16 ((n + 1) % cap)).toNat = (n + 1) % cap := by
  have := Nat.mod_lt (n + 1) h0
  rw [BitVec.toNat_ofNat, Nat.mod_eq_of_lt (by omega)]

/-- A well-formed ring takes a sample and stays well-formed (43_sensor_filter.md R132). -/
theorem insertSample_wf {c : Config} {p : FilterParams} {v : Sample} {f : FilterState} (hp : p ∈ c.filters)
    (hf : f.wf c.sampleWidth p = true) (hv : v.toNat < 2 ^ c.sampleWidth) :
    ∃ g, insertSample p v f = some g ∧ g.wf c.sampleWidth p = true := by
  obtain ⟨hl, hi, hs, hh⟩ := FilterState.wf_iff.1 hf
  have hc := Config.filter_legal hp
  refine ⟨_, insertSample_some.2 ⟨hl, hi, rfl⟩, FilterState.wf_iff.2 ⟨?_, ?_, hs, fun x hx => ?_⟩⟩
  · rw [List.length_set, hl]
  · show (BitVec.ofNat 16 ((f.histIdx.toNat + 1) % p.capacity)).toNat < p.capacity
    rw [nextIndex_toNat hc.1 hc.2.1]
    exact Nat.mod_lt _ hc.1
  · rcases List.mem_or_eq_of_mem_set hx with hx | hx
    · exact hh x hx
    · exact hx ▸ hv

/-- A filter right after reset, or seeded, is well-formed (10_state.md R34, 43_sensor_filter.md R131). -/
theorem seeded_wf {c : Config} {p : FilterParams} {v : Sample} (hp : p ∈ c.filters)
    (hv : v.toNat < 2 ^ c.sampleWidth) :
    FilterState.wf c.sampleWidth p { hist := fillHistory p v, histIdx := 0, sticky := v } = true := by
  have hc := Config.filter_legal hp
  refine FilterState.wf_iff.2 ⟨List.length_replicate, ?_, hv, fun x hx => ?_⟩
  · exact hc.1
  · rw [List.eq_of_mem_replicate hx]; exact hv

/-- The history memory has its form at reset (10_state.md R34). -/
theorem Memory.wf_reset (c : Config) : Memory.wf c (c.filters.map .reset) = true := by
  refine Memory.wf_iff.2 ⟨List.length_map .., fun k p f hp hf => ?_⟩
  rw [List.getElem?_map, hp] at hf
  cases hf
  exact seeded_wf (v := 0) (List.mem_of_getElem? hp) (by have := c.two_pow_sample; simp)

end Sys2Proof.Machine
end

