-- ==== Sys2Proof/Laws/Filter.lean ====
section
/-!
SUPPORT. The stages of the filter pipeline (43_sensor_filter.md R132 to R136) and what a filter command can do.
-/

namespace Sys2Proof.Machine

/-- A list of numbers each below `b` sums to at most `length * (b - 1)`. -/
theorem sum_le_of_lt {b : Nat} : ∀ l : List Nat, (∀ x ∈ l, x < b) → l.sum ≤ l.length * (b - 1)
  | [], _ => by simp
  | x :: l, h => by
    have hx := h x (by simp)
    have hl := sum_le_of_lt l fun y hy => h y (by simp [hy])
    rw [List.sum_cons, List.length_cons, Nat.succ_mul]
    omega

/-- A list of numbers each at least `a` sums to at least `length * a`. -/
theorem le_sum_of_le {a : Nat} : ∀ l : List Nat, (∀ x ∈ l, a ≤ x) → l.length * a ≤ l.sum
  | [], _ => by simp
  | x :: l, h => by
    have hx := h x (by simp)
    have hl := le_sum_of_le l fun y hy => h y (by simp [hy])
    rw [List.sum_cons, List.length_cons, Nat.succ_mul]
    omega

/-- The mean of a full ring lies between any bounds of its entries (43_sensor_filter.md R133, R138 (b)). -/
theorem historyMean_between {p : FilterParams} {hist : List Sample} {a b : Nat} (h1 : 1 ≤ p.capacity)
    (hl : hist.length = p.capacity) (ha : ∀ v ∈ hist, a ≤ v.toNat) (hb : ∀ v ∈ hist, v.toNat ≤ b) :
    a ≤ historyMean p hist ∧ historyMean p hist ≤ b := by
  have hs := le_sum_of_le (a := a) (hist.map BitVec.toNat) (by simpa using ha)
  have ht := sum_le_of_lt (b := b + 1) (hist.map BitVec.toNat)
    (by simpa using fun v hv => Nat.lt_succ_of_le (hb v hv))
  rw [List.length_map, hl, Nat.mul_comm] at hs ht
  unfold historyMean
  exact ⟨(Nat.le_div_iff_mul_le h1).2 hs,
    Nat.div_le_of_le_mul (by rw [Nat.mul_comm]; simpa [Nat.mul_comm] using ht)⟩

/-- The mean of samples of SW bits has SW bits (43_sensor_filter.md R133). -/
theorem historyMean_lt {c : Config} {p : FilterParams} {hist : List Sample} (h1 : 1 ≤ p.capacity)
    (hl : hist.length = p.capacity) (hb : ∀ v ∈ hist, v.toNat < 2 ^ c.sampleWidth) :
    historyMean p hist < 2 ^ c.sampleWidth := by
  have h2 := c.two_pow_sample
  have := (historyMean_between (a := 0) (b := 2 ^ c.sampleWidth - 1) h1 hl (fun _ _ => Nat.zero_le _)
    (fun v hv => by have := hb v hv; omega)).2
  omega

/-- The gate changes `STICKY[k]` alone (43_sensor_filter.md R134). -/
@[simp] theorem hysteresisGate_hist (p : FilterParams) (m : Nat) (f : FilterState) :
    (hysteresisGate p m f).hist = f.hist := by unfold hysteresisGate; split <;> rfl

@[simp] theorem hysteresisGate_histIdx (p : FilterParams) (m : Nat) (f : FilterState) :
    (hysteresisGate p m f).histIdx = f.histIdx := by unfold hysteresisGate; split <;> rfl

/-- `STICKY[k]` after the gate is the mean or what it was (43_sensor_filter.md R134). -/
theorem hysteresisGate_sticky (p : FilterParams) {m : Nat} (f : FilterState) (hm : m < 2 ^ 16) :
    (hysteresisGate p m f).sticky.toNat = if p.stickyRange < absDiff m f.sticky.toNat then m else f.sticky.toNat := by
  unfold hysteresisGate
  split
  · rw [BitVec.toNat_ofNat, Nat.mod_eq_of_lt hm]
  · rfl

/-- The gate keeps a ring well-formed. -/
theorem hysteresisGate_wf {c : Config} {p : FilterParams} {f : FilterState} {m : Nat}
    (hf : f.wf c.sampleWidth p = true) (hm : m < 2 ^ c.sampleWidth) :
    (hysteresisGate p m f).wf c.sampleWidth p = true := by
  have h2 := c.two_pow_sample
  obtain ⟨hl, hi, hs, hh⟩ := FilterState.wf_iff.1 hf
  refine FilterState.wf_iff.2 ⟨by simpa using hl, by simpa using hi, ?_, by simpa using hh⟩
  rw [hysteresisGate_sticky p f (by omega)]
  split
  · exact hm
  · exact hs

/-- A clamped value is in the clamp window (43_sensor_filter.md R135). -/
theorem clampValue_mem {p : FilterParams} (h : p.minClamp < p.maxClamp) (v : Nat) :
    p.minClamp ≤ clampValue p v ∧ clampValue p v ≤ p.maxClamp := by
  unfold clampValue
  omega

/-- A value of the clamp window is mapped into the output range (43_sensor_filter.md R136). -/
theorem remap_mem {c : Config} {p : FilterParams} (h : p.minClamp < p.maxClamp) {v : Nat} (hv : v ≤ p.maxClamp) :
    c.minOutput ≤ remap c p v ∧ remap c p v ≤ c.maxOutput := by
  have ho := c.minOutput_le
  have hd : 0 < p.maxClamp - p.minClamp := by omega
  have : (v - p.minClamp) * (c.maxOutput - c.minOutput) / (p.maxClamp - p.minClamp) ≤ c.maxOutput - c.minOutput := by
    apply Nat.div_le_of_le_mul
    exact Nat.mul_le_mul_right _ (by omega)
  refine ⟨Nat.le_add_right _ _, ?_⟩
  unfold remap
  omega

/-- What FILTER_READ can do (43_sensor_filter.md R130): trap on its operands, or run the pipeline on its filter. -/
theorem execFilterRead_next {k : Channel} {w : Word} {s t : State} (h : execFilterRead k w s = .next t) :
    s.fault.halted = false ∧
    ((filterOperand s.cfg k w = none ∧ t = s.trapped .illegalCommand) ∨
      ∃ p v f g, filterOperand s.cfg k w = some (p, v) ∧ s.filters[k.toNat]? = some f ∧ insertSample p v f = some g ∧
        t = (s.setFilter k.toNat (hysteresisGate p (historyMean p g.hist) g)).responding
          (BitVec.ofNat 32 (remap s.cfg p (clampValue p (hysteresisGate p (historyMean p g.hist) g).sticky.toNat))) true) := by
  obtain ⟨h0, h⟩ := whenRunning_next.1 h
  refine ⟨h0, ?_⟩
  split at h
  · exact .inl ⟨‹_›, trap_next.1 h⟩
  · rename_i p v hpv
    split at h
    · cases h
    · rename_i f hf
      split at h
      · cases h
      · rename_i g hg
        exact .inr ⟨p, v, f, g, hpv, hf, hg, respond_next.1 h⟩

/-- FILTER_READ of a filter with its ring in order runs the pipeline (43_sensor_filter.md R130). -/
theorem execFilterRead_of_wf {k : Channel} {w : Word} {s : State} {p : FilterParams} {f g : FilterState}
    (h0 : s.fault.halted = false) (hp : s.cfg.filters[k.toNat]? = some p) (hw : w.toNat < 2 ^ s.cfg.sampleWidth)
    (hf : s.filters[k.toNat]? = some f) (hg : insertSample p (w.setWidth 16) f = some g) :
    execFilterRead k w s = .next ((s.setFilter k.toNat (hysteresisGate p (historyMean p g.hist) g)).responding
      (BitVec.ofNat 32 (remap s.cfg p (clampValue p (hysteresisGate p (historyMean p g.hist) g).sticky.toNat))) true) := by
  rw [execFilterRead, whenRunning_of_running h0, filterOperand_some.2 ⟨hp, hw, rfl⟩]
  simp only [hf, hg]
  rfl

/-- What FILTER_INIT can do (43_sensor_filter.md R131): trap on its operands, or seed its filter. -/
theorem execFilterInit_next {k : Channel} {w : Word} {s t : State} (h : execFilterInit k w s = .next t) :
    s.fault.halted = false ∧
    ((filterOperand s.cfg k w = none ∧ t = s.trapped .illegalCommand) ∨
      ∃ p v f, filterOperand s.cfg k w = some (p, v) ∧ s.filters[k.toNat]? = some f ∧
        t = (s.setFilter k.toNat { hist := fillHistory p v, histIdx := 0, sticky := v }).responding 0 true) := by
  obtain ⟨h0, h⟩ := whenRunning_next.1 h
  refine ⟨h0, ?_⟩
  split at h
  · exact .inl ⟨‹_›, trap_next.1 h⟩
  · rename_i p v hpv
    split at h
    · cases h
    · rename_i f hf
      exact .inr ⟨p, v, f, hpv, hf, respond_next.1 h⟩

/-- The filter commands keep the form of the history memory (20_memory.md R45). -/
theorem execFilterRead_memory {k : Channel} {w : Word} {s t : State} (h : execFilterRead k w s = .next t)
    (hm : Memory.wf s.cfg s.filters = true) : Memory.wf t.cfg t.filters = true := by
  obtain ⟨_, ⟨_, rfl⟩ | ⟨p, v, f, g, hpv, hf, hg, rfl⟩⟩ := execFilterRead_next h
  · exact hm
  · obtain ⟨hp, hw, rfl⟩ := filterOperand_some.1 hpv
    have hmem := List.mem_of_getElem? hp
    have hfw := (Memory.wf_iff.1 hm).2 _ _ _ hp hf
    obtain ⟨g', hg', hgw⟩ := insertSample_wf hmem hfw (v := w.setWidth 16) (by rw [sample_toNat hw]; exact hw)
    rw [hg] at hg'
    cases hg'
    obtain ⟨hl, _, _, hh⟩ := FilterState.wf_iff.1 hgw
    exact Memory.wf_set hm hp
      (hysteresisGate_wf hgw (historyMean_lt (Config.filter_legal hmem).1 hl hh))

theorem execFilterInit_memory {k : Channel} {w : Word} {s t : State} (h : execFilterInit k w s = .next t)
    (hm : Memory.wf s.cfg s.filters = true) : Memory.wf t.cfg t.filters = true := by
  obtain ⟨_, ⟨_, rfl⟩ | ⟨p, v, f, hpv, hf, rfl⟩⟩ := execFilterInit_next h
  · exact hm
  · obtain ⟨hp, hw, rfl⟩ := filterOperand_some.1 hpv
    exact Memory.wf_set hm hp (seeded_wf (List.mem_of_getElem? hp) (by rw [sample_toNat hw]; exact hw))

end Sys2Proof.Machine
end

