-- ==== Sys2Proof/Laws/Ramp.lean ====
section
/-!
SUPPORT. What each ramp controller and converter command can do (41_ramp_controller.md R92 to R98, 40_converter.md R84, R85), each
said once, and the range of the ramp parameters (41_ramp_controller.md R90).
-/

namespace Sys2Proof.Machine

/-- The ramp parameters of a rate are in range (41_ramp_controller.md R90, 10_state.md R33). -/
theorem rampParams_some {c : Config} {r n p : Nat} (h : rampParams c r = some (n, p)) :
    r ≠ 0 ∧ n = max 1 (ceilDiv (r * c.safetyFloorNs) 1000000000) ∧ p = n * 1000000000 / r / c.tickNs ∧
      1 ≤ n ∧ n < 2 ^ 32 ∧ 1 ≤ p ∧ p ≤ 2 ^ c.compareWidth - 2 ∧ p < 2 ^ 32 := by
  have hw := c.two_pow_width
  unfold rampParams at h
  split at h
  · cases h
  · rename_i h0
    simp only [] at h
    split at h
    · cases h
    · rename_i h1
      split at h
      · rename_i hv
        cases h
        have hv' := valid_natCast_iff.1 hv
        exact ⟨h0, rfl, rfl, le_max_left _ _, by omega, hv'.1, hv'.2, by omega⟩
      · cases h

/-- `rampParams` runs through its three checks (41_ramp_controller.md R90). -/
theorem rampParams_of {c : Config} {r : Nat} (h0 : r ≠ 0)
    (h1 : max 1 (ceilDiv (r * c.safetyFloorNs) 1000000000) < 2 ^ 32)
    (h2 : 1 ≤ max 1 (ceilDiv (r * c.safetyFloorNs) 1000000000) * 1000000000 / r / c.tickNs)
    (h3 : max 1 (ceilDiv (r * c.safetyFloorNs) 1000000000) * 1000000000 / r / c.tickNs ≤ 2 ^ c.compareWidth - 2) :
    rampParams c r = some (max 1 (ceilDiv (r * c.safetyFloorNs) 1000000000),
      max 1 (ceilDiv (r * c.safetyFloorNs) 1000000000) * 1000000000 / r / c.tickNs) := by
  unfold rampParams
  rw [if_neg h0]
  simp only []
  rw [if_neg (by omega), if_pos]
  · rfl
  · exact valid_natCast_iff.2 ⟨h2, h3⟩

/-- `ceil_div` is the least multiple that reaches (00_scope.md R13). -/
theorem ceilDiv_le_iff {a b n : Nat} (hb : 0 < b) : ceilDiv a b ≤ n ↔ a ≤ n * b := by
  unfold ceilDiv
  rw [Nat.div_le_iff_le_mul_add_pred hb, Nat.mul_comm b n]
  omega

/-- What START can do (41_ramp_controller.md R92). -/
theorem execStart_next {s t : State} (h : execStart s = .next t) :
    s.fault.halted = false ∧
    ((compareValue? s.cfg s.ramp.curFreq.toNat = none ∧ t = s.trapped .frequencyOutOfRange) ∨
      ∃ c, compareValue? s.cfg s.ramp.curFreq.toNat = some c ∧
        t = ({ s with timer := s.timer.armPeriodic (BitVec.ofNat 32 c) } : State).responding 0 true) := by
  obtain ⟨h0, h⟩ := whenRunning_next.1 h
  refine ⟨h0, ?_⟩
  split at h
  · exact .inl ⟨‹_›, trap_next.1 h⟩
  · exact .inr ⟨_, ‹_›, respond_next.1 h⟩

/-- What STOP can do (41_ramp_controller.md R93). -/
theorem execStop_next {s t : State} (h : execStop s = .next t) :
    s.fault.halted = false ∧
      t = ({ s with timer := s.timer.disable, ramp := { s.ramp with rampEn := false } } : State).responding 0 true := by
  obtain ⟨h0, h⟩ := whenRunning_next.1 h
  exact ⟨h0, respond_next.1 h⟩

/-- What SET_FREQ can do (41_ramp_controller.md R94). -/
theorem execSetFreq_next {f : Word} {s t : State} (h : execSetFreq f s = .next t) :
    s.fault.halted = false ∧
    ((compareValue? s.cfg f.toNat = none ∧ t = s.trapped .frequencyOutOfRange) ∨
      ∃ c, compareValue? s.cfg f.toNat = some c ∧
        t = ({ s with
          ramp := { s.ramp with rampEn := false, curFreq := f }
          timer := { s.timer with cmp := BitVec.ofNat 32 c } } : State).responding 0 true) := by
  obtain ⟨h0, h⟩ := whenRunning_next.1 h
  refine ⟨h0, ?_⟩
  split at h
  · exact .inl ⟨‹_›, trap_next.1 h⟩
  · exact .inr ⟨_, ‹_›, respond_next.1 h⟩

/-- What SET_RAMP can do (41_ramp_controller.md R95). -/
theorem execSetRamp_next {f r : Word} {s t : State} (h : execSetRamp f r s = .next t) :
    s.fault.halted = false ∧
    ((compareValue? s.cfg f.toNat = none ∧ t = s.trapped .frequencyOutOfRange) ∨
      (∃ c, compareValue? s.cfg f.toNat = some c ∧
        ((rampParams s.cfg r.toNat = none ∧ t = s.trapped .rampRateOutOfRange) ∨
          ∃ n p, rampParams s.cfg r.toNat = some (n, p) ∧
            t = ({ s with ramp := s.ramp.arm f (BitVec.ofNat 32 n) (BitVec.ofNat 32 p) } : State).responding 0 true))) := by
  obtain ⟨h0, h⟩ := whenRunning_next.1 h
  refine ⟨h0, ?_⟩
  split at h
  · exact .inl ⟨‹_›, trap_next.1 h⟩
  · refine .inr ⟨_, ‹_›, ?_⟩
    split at h
    · exact .inl ⟨‹_›, trap_next.1 h⟩
    · exact .inr ⟨_, _, ‹_›, respond_next.1 h⟩

/-- What GET_FREQ can do (41_ramp_controller.md R96). -/
theorem execGetFreq_next {s t : State} (h : execGetFreq s = .next t) :
    s.fault.halted = false ∧ t = s.responding s.ramp.curFreq true := by
  obtain ⟨h0, h⟩ := whenRunning_next.1 h
  exact ⟨h0, respond_next.1 h⟩

/-- What POP_OVF can do (41_ramp_controller.md R97). -/
theorem execPopOvf_next {s t : State} (h : execPopOvf s = .next t) :
    s.fault.halted = false ∧
      t = ({ s with ramp := { s.ramp with ovfTicks := 0 } } : State).responding s.ramp.ovfTicks true := by
  obtain ⟨h0, h⟩ := whenRunning_next.1 h
  exact ⟨h0, respond_next.1 h⟩

/-- What GET_STATUS can do (41_ramp_controller.md R98). -/
theorem execGetStatus_next {s t : State} (h : execGetStatus s = .next t) :
    s.fault.halted = false ∧ t = s.responding (statusWord s.ramp s.timer) true := by
  obtain ⟨h0, h⟩ := whenRunning_next.1 h
  exact ⟨h0, respond_next.1 h⟩

/-- What CONV_PERIOD can do: answer, whatever its operand (40_converter.md R84). -/
theorem execConvPeriod_next {p : Word} {s t : State} (h : execConvPeriod p s = .next t) :
    s.fault.halted = false ∧ ∃ w ok, t = s.responding w ok := by
  obtain ⟨h0, h⟩ := whenRunning_next.1 h
  refine ⟨h0, ?_⟩
  simp only [] at h
  split at h <;> exact ⟨_, _, respond_next.1 h⟩

/-- What CONV_FREQ can do: answer, whatever its operand (40_converter.md R85). -/
theorem execConvFreq_next {f : Word} {s t : State} (h : execConvFreq f s = .next t) :
    s.fault.halted = false ∧ ∃ w ok, t = s.responding w ok := by
  obtain ⟨h0, h⟩ := whenRunning_next.1 h
  refine ⟨h0, ?_⟩
  split at h <;> exact ⟨_, _, respond_next.1 h⟩

end Sys2Proof.Machine
end

