-- ==== Sys2Proof/Laws/Sequencer.lean ====
section
/-!
SUPPORT. What TICK and SERVICE can do (42_timer_sequencer.md R110 to R117), stage by stage.
-/

namespace Sys2Proof.Machine

/-- What TICK can do (42_timer_sequencer.md R110). -/
theorem stepTick_next {s t : State} : stepTick s = .next t ↔
    s.fault.halted = false ∧ s.timer.running = true ∧
      t = { s with timer := s.timer.tick s.cfg.compareWidth } := by
  unfold stepTick
  rw [whenRunning_next]
  refine and_congr_right fun _ => ?_
  split
  · rename_i h
    simp only [h, true_and]
    constructor
    · intro h'; cases h'; rfl
    · rintro rfl; rfl
  · rename_i h
    simp [h]

/-- TICK leaves the compare register and the two control bits. -/
@[simp] theorem TimerRegs.tick_cmp (w : Nat) (t : TimerRegs) : (t.tick w).cmp = t.cmp := by
  unfold TimerRegs.tick; split <;> rfl

@[simp] theorem TimerRegs.tick_running (w : Nat) (t : TimerRegs) : (t.tick w).running = t.running := by
  unfold TimerRegs.tick; split <;> rfl

@[simp] theorem TimerRegs.tick_ie (w : Nat) (t : TimerRegs) : (t.tick w).ie = t.ie := by
  unfold TimerRegs.tick; split <;> rfl

/-- TICK at the compare value (42_timer_sequencer.md R111). -/
theorem TimerRegs.tick_match {w : Nat} {t : TimerRegs} (h : t.counter = t.cmp) :
    t.tick w = { t with counter := 0, matchCmp := t.cmp, pending := true } := by
  rw [TimerRegs.tick, if_pos h]

/-- TICK elsewhere (42_timer_sequencer.md R110). -/
theorem TimerRegs.tick_count {w : Nat} {t : TimerRegs} (h : t.counter ≠ t.cmp) :
    t.tick w = { t with counter := BitVec.ofNat 32 ((t.counter.toNat + 1) % 2 ^ w) } := by
  rw [TimerRegs.tick, if_neg h]

/-- The adjusted frequency stops at the target, lies between it and the old one, and is done exactly there
(42_timer_sequencer.md R114). -/
theorem adjustFrequency_eq (cur target delta : Nat) :
    adjustFrequency cur target delta =
      (if cur < target then min target (cur + delta) else max target (cur - delta),
        decide ((if cur < target then min target (cur + delta) else max target (cur - delta)) = target)) := by
  unfold adjustFrequency
  split
  · split
    · rename_i h
      rw [min_eq_left h]
      simp
    · rename_i h
      rw [min_eq_right (by omega)]
      simp only [Prod.mk.injEq, true_and]
      symm
      rw [decide_eq_false_iff_not]
      omega
  · split
    · split
      · rename_i h
        rw [max_eq_left (by omega)]
        simp
      · rename_i h
        rw [max_eq_right (by omega)]
        simp only [Prod.mk.injEq, true_and]
        symm
        rw [decide_eq_false_iff_not]
        omega
    · rw [max_eq_left (by omega)]
      simp

/-- What step 2 of the service comes to, case by case (42_timer_sequencer.md R112 to R114). -/
theorem advanceRamp_disabled {s : State} (h : s.ramp.rampEn = false) : advanceRamp s = .done s := by
  rw [advanceRamp, if_pos h]

theorem advanceRamp_noPeriod {s : State} (h : s.ramp.rampEn = true) (hp : s.ramp.periodTicks.toNat = 0) :
    advanceRamp s = .noPeriod := by
  rw [advanceRamp, if_neg (by simp [h]), if_pos hp]

theorem advanceRamp_hold {s : State} (h : s.ramp.rampEn = true) (hp : accumulated s < s.ramp.periodTicks.toNat) :
    advanceRamp s = .done { s with ramp := { s.ramp with accTicks := BitVec.ofNat 32 (accumulated s) } } := by
  rw [advanceRamp, if_neg (by simp [h]), if_neg (by omega)]
  simp only []
  rw [if_pos (Nat.div_eq_of_lt hp)]

theorem advanceRamp_adjust {s : State} (h : s.ramp.rampEn = true) (h1 : 1 ≤ s.ramp.periodTicks.toNat)
    (hp : s.ramp.periodTicks.toNat ≤ accumulated s) :
    advanceRamp s =
      match compareValue? s.cfg (adjustedFrequency s) with
      | none => .outOfRange
      | some c =>
        .done
          { s with
            timer := { s.timer with cmp := BitVec.ofNat 32 c }
            ramp :=
              { s.ramp with
                curFreq := BitVec.ofNat 32 (adjustedFrequency s)
                rampEn := decide (adjustedFrequency s ≠ s.ramp.target.toNat)
                accTicks := BitVec.ofNat 32 (accumulated s % s.ramp.periodTicks.toNat) } } := by
  have hm : ¬ accumulated s / s.ramp.periodTicks.toNat = 0 := by
    have := Nat.div_pos hp h1
    omega
  have hr : accumulated s - accumulated s / s.ramp.periodTicks.toNat * s.ramp.periodTicks.toNat =
      accumulated s % s.ramp.periodTicks.toNat := by
    have := Nat.div_add_mod (accumulated s) s.ramp.periodTicks.toNat
    rw [Nat.mul_comm] at this
    omega
  rw [advanceRamp, if_neg (by simp [h]), if_neg (by omega)]
  simp only []
  rw [adjustFrequency_eq, hr, ← decide_not]
  exact if_neg hm

/-- The adjusted frequency is a 32-bit value, between the old one and the target (42_timer_sequencer.md R114, R121). -/
theorem adjustedFrequency_between (s : State) :
    (s.ramp.curFreq.toNat ≤ adjustedFrequency s ∧ adjustedFrequency s ≤ s.ramp.target.toNat) ∨
    (s.ramp.target.toNat ≤ adjustedFrequency s ∧ adjustedFrequency s ≤ s.ramp.curFreq.toNat) := by
  simp only [adjustedFrequency]
  split <;> omega

theorem adjustedFrequency_lt (s : State) : adjustedFrequency s < 2 ^ 32 := by
  have h1 := s.ramp.curFreq.isLt
  have h2 := s.ramp.target.isLt
  have := adjustedFrequency_between s
  omega

/-- Step 3 of the service in closed form (42_timer_sequencer.md R115). -/
theorem correctOverrun_eq (s : State) : correctOverrun s = { s with
    ramp := { s.ramp with ovfTicks := countedOverrun s s.timer.cmp.toNat }
    timer := { s.timer with counter := cutCounter s s.timer.cmp.toNat } } := by
  unfold correctOverrun countedOverrun cutCounter sat32
  split
  · rename_i h
    simp only []
    rw [Nat.min_eq_right h.le, show s.timer.counter.toNat - (s.timer.counter.toNat - s.timer.cmp.toNat) =
      s.timer.cmp.toNat by omega]
    rfl
  · rename_i h
    have ho := s.ramp.ovfTicks.isLt
    rw [Nat.min_eq_left (Nat.le_of_not_lt h), show s.timer.counter.toNat - s.timer.cmp.toNat = 0 by omega,
      Nat.add_zero, Nat.min_eq_left (by omega), BitVec.ofNat_toNat, BitVec.ofNat_toNat, BitVec.setWidth_eq,
      BitVec.setWidth_eq]

/-- Step 1 changes nothing step 2 reads but `PENDING`. -/
@[simp] theorem accumulated_pulse (s : State) : accumulated (pulse s) = accumulated s := rfl

@[simp] theorem adjustedFrequency_pulse (s : State) : adjustedFrequency (pulse s) = adjustedFrequency s := rfl

theorem serviceEnabled_iff {t : TimerRegs} : t.serviceEnabled = true ↔ t.pending = true ∧ t.ie = true := by
  rw [TimerRegs.serviceEnabled, Bool.and_eq_true]

/-- SERVICE where it is enabled (42_timer_sequencer.md R112). -/
theorem stepService_of_ready {s : State} (h : ServiceReady s) : stepService s =
    match advanceRamp (pulse s) with
    | .done s2 => .next (correctOverrun s2)
    | .outOfRange => trap .frequencyOutOfRange (pulse s)
    | .noPeriod => .fault .zeroRampPeriod := by
  rw [stepService, whenRunning_of_running h.2.2]
  exact if_pos (serviceEnabled_iff.2 ⟨h.1, h.2.1⟩)

/-- SERVICE takes a step only where it is enabled (42_timer_sequencer.md R112). -/
theorem stepService_ready_of_next {s t : State} (h : stepService s = .next t) : ServiceReady s := by
  obtain ⟨h0, h⟩ := whenRunning_next.1 h
  split at h
  · rename_i he
    obtain ⟨h1, h2⟩ := serviceEnabled_iff.1 he
    exact ⟨h1, h2, h0⟩
  · cases h

/-- What SERVICE can do (42_timer_sequencer.md R112 to R116): no ramp; less than a period; an adjustment; or a trap. -/
theorem stepService_next {s t : State} (h : stepService s = .next t) : ServiceReady s ∧
    ((s.ramp.rampEn = false ∧ t = correctOverrun (pulse s)) ∨
      (s.ramp.rampEn = true ∧ accumulated s < s.ramp.periodTicks.toNat ∧
        t = correctOverrun { pulse s with ramp := { s.ramp with accTicks := BitVec.ofNat 32 (accumulated s) } }) ∨
      (s.ramp.rampEn = true ∧ 1 ≤ s.ramp.periodTicks.toNat ∧ s.ramp.periodTicks.toNat ≤ accumulated s ∧
        ∃ c, compareValue? s.cfg (adjustedFrequency s) = some c ∧
          t = correctOverrun { pulse s with
            timer := { (pulse s).timer with cmp := BitVec.ofNat 32 c }
            ramp :=
              { s.ramp with
                curFreq := BitVec.ofNat 32 (adjustedFrequency s)
                rampEn := decide (adjustedFrequency s ≠ s.ramp.target.toNat)
                accTicks := BitVec.ofNat 32 (accumulated s % s.ramp.periodTicks.toNat) } }) ∨
      (s.ramp.rampEn = true ∧ 1 ≤ s.ramp.periodTicks.toNat ∧ s.ramp.periodTicks.toNat ≤ accumulated s ∧
        compareValue? s.cfg (adjustedFrequency s) = none ∧ t = (pulse s).trapped .frequencyOutOfRange)) := by
  have hr := stepService_ready_of_next h
  refine ⟨hr, ?_⟩
  rw [stepService_of_ready hr] at h
  cases he : s.ramp.rampEn with
  | false =>
    rw [advanceRamp_disabled (by simpa using he)] at h
    cases h
    exact .inl ⟨rfl, rfl⟩
  | true =>
    by_cases h0 : s.ramp.periodTicks.toNat = 0
    · rw [advanceRamp_noPeriod (by simpa using he) (by simpa using h0)] at h
      cases h
    · by_cases hp : accumulated s < s.ramp.periodTicks.toNat
      · rw [advanceRamp_hold (by simpa using he) (by simpa using hp)] at h
        cases h
        exact .inr (.inl ⟨rfl, hp, rfl⟩)
      · have h1 : 1 ≤ s.ramp.periodTicks.toNat := by omega
        have hp' : s.ramp.periodTicks.toNat ≤ accumulated s := by omega
        rw [advanceRamp_adjust (by simpa using he) (by simpa using h1) (by simpa using hp')] at h
        rw [show compareValue? (pulse s).cfg (adjustedFrequency (pulse s)) =
          compareValue? s.cfg (adjustedFrequency s) from rfl] at h
        cases hc : compareValue? s.cfg (adjustedFrequency s) with
        | none =>
          rw [hc] at h
          exact .inr (.inr (.inr ⟨rfl, h1, hp', rfl, trap_next.1 h⟩))
        | some c =>
          rw [hc] at h
          cases h
          exact .inr (.inr (.inl ⟨rfl, h1, hp', c, rfl, rfl⟩))

end Sys2Proof.Machine
end

