-- ==== Sys2Proof/Laws/Invariant.lean ====
section
/-!
SUPPORT. Each command and each agent step keeps the invariant: one lemma for each, over what it can do. The statement for every step
is left to the provers.
-/

namespace Sys2Proof.Machine

/-- The invariant is about the block, not about the model's own fields. -/
theorem Inv.of_block {s t : State} (h : Inv s) (hc : t.cfg = s.cfg) (hr : t.ramp = s.ramp) (ht : t.timer = s.timer)
    (hf : t.fault = s.fault) (hm : t.filters = s.filters) : Inv t := by
  obtain ⟨cfg, ramp, timer, fault, filters, schedule, trace, response⟩ := t
  cases hc; cases hr; cases ht; cases hf; cases hm
  exact ⟨h.memory, h.cmpWidth, h.counterWidth, h.matchWidth, h.ieRunning, h.frequency, h.runningCommitted,
    h.pendingMatch, h.ramping, h.errCode⟩

theorem Inv.responding {s : State} (h : Inv s) (w : Word) (ok : Bool) : Inv (s.responding w ok) :=
  h.of_block rfl rfl rfl rfl rfl

theorem Inv.popped {s : State} (h : Inv s) (rest : List AgentStep) : Inv (s.popped rest) :=
  h.of_block rfl rfl rfl rfl rfl

/-- A trap keeps it: nothing but the fault state changes (60_exceptions.md R140). -/
theorem Inv.trapped {s : State} (h : Inv s) (code : TrapCode) : Inv (s.trapped code) :=
  ⟨h.memory, h.cmpWidth, h.counterWidth, h.matchWidth, h.ieRunning, h.frequency, h.runningCommitted,
    h.pendingMatch, h.ramping, .inr ⟨rfl, trapNumber_mem code⟩⟩

/-- RESET establishes it, from any state (70_reset_and_hazards.md R160). -/
theorem inv_resetBlock (s : State) : Inv s.resetBlock := by
  have hw := s.cfg.two_pow_width
  refine ⟨Memory.wf_reset s.cfg, ?_, ?_, ?_, rfl, .inl ⟨rfl, rfl⟩, ?_, ?_, ?_, .inl ⟨rfl, rfl⟩⟩
  · show 0 < 2 ^ s.cfg.compareWidth; omega
  · show 0 < 2 ^ s.cfg.compareWidth; omega
  · show 0 < 2 ^ s.cfg.compareWidth; omega
  · intro h; cases h
  · intro h; cases h
  · intro h; cases h

theorem execStart_inv {s t : State} (hi : Inv s) (h : execStart s = .next t) : Inv t := by
  obtain ⟨_, ⟨_, rfl⟩ | ⟨c, hc, rfl⟩⟩ := execStart_next h
  · exact hi.trapped _
  · obtain ⟨hok, hv, h1, h2, h3⟩ := compareValue?_some hc
    have hw := s.cfg.two_pow_width
    have e := toNat_ofNat_of_lt h3
    refine ⟨hi.memory, ?_, ?_, hi.matchWidth, rfl, .inr ⟨hok, ?_⟩, fun _ => hok.1, ?_, hi.ramping, hi.errCode⟩
    · show (BitVec.ofNat 32 c).toNat < _; rw [e]; show _ < 2 ^ s.cfg.compareWidth; omega
    · show 0 < 2 ^ s.cfg.compareWidth; omega
    · show (BitVec.ofNat 32 c).toNat + 1 = _; rw [e]; exact hv
    · intro h; cases h

theorem execStop_inv {s t : State} (hi : Inv s) (h : execStop s = .next t) : Inv t := by
  obtain ⟨_, rfl⟩ := execStop_next h
  exact ⟨hi.memory, hi.cmpWidth, hi.counterWidth, hi.matchWidth, rfl, hi.frequency, fun h => (nomatch h),
    fun h => (nomatch h), fun h => (nomatch h), hi.errCode⟩

theorem execSetFreq_inv {f : Word} {s t : State} (hi : Inv s) (h : execSetFreq f s = .next t) : Inv t := by
  obtain ⟨_, ⟨_, rfl⟩ | ⟨c, hc, rfl⟩⟩ := execSetFreq_next h
  · exact hi.trapped _
  · obtain ⟨hok, hv, h1, h2, h3⟩ := compareValue?_some hc
    have hw := s.cfg.two_pow_width
    have e := toNat_ofNat_of_lt h3
    refine ⟨hi.memory, ?_, hi.counterWidth, hi.matchWidth, hi.ieRunning, .inr ⟨hok, ?_⟩, fun _ => hok.1,
      hi.pendingMatch, fun h => (nomatch h), hi.errCode⟩
    · show (BitVec.ofNat 32 c).toNat < 2 ^ s.cfg.compareWidth; rw [e]; omega
    · show (BitVec.ofNat 32 c).toNat + 1 = _; rw [e]; exact hv

theorem execSetRamp_inv {f r : Word} {s t : State} (hi : Inv s) (h : execSetRamp f r s = .next t) : Inv t := by
  obtain ⟨_, ⟨_, rfl⟩ | ⟨c, hc, ⟨_, rfl⟩ | ⟨n, p, hp, rfl⟩⟩⟩ := execSetRamp_next h
  · exact hi.trapped _
  · exact hi.trapped _
  · obtain ⟨hok, -, -, -, -⟩ := compareValue?_some hc
    obtain ⟨-, -, -, n1, n2, p1, p2, p3⟩ := rampParams_some hp
    have en := toNat_ofNat_of_lt n2
    have ep := toNat_ofNat_of_lt p3
    refine ⟨hi.memory, hi.cmpWidth, hi.counterWidth, hi.matchWidth, hi.ieRunning, hi.frequency,
      hi.runningCommitted, hi.pendingMatch, fun _ => ⟨hok, ?_, ?_, ?_, ?_⟩, hi.errCode⟩
    · show 1 ≤ (BitVec.ofNat 32 n).toNat; rw [en]; exact n1
    · show 1 ≤ (BitVec.ofNat 32 p).toNat; rw [ep]; exact p1
    · show (BitVec.ofNat 32 p).toNat ≤ _; rw [ep]; exact p2
    · show (s.ramp.arm f (BitVec.ofNat 32 n) (BitVec.ofNat 32 p)).accTicks.toNat < (BitVec.ofNat 32 p).toNat
      rw [RampState.arm_accTicks]
      split
      · rename_i hs
        have := (hi.ramping hs.1).2.2.2.2
        rwa [hs.2.2.2] at this
      · rw [ep]; show 0 < p; omega

theorem execPopOvf_inv {s t : State} (hi : Inv s) (h : execPopOvf s = .next t) : Inv t := by
  obtain ⟨_, rfl⟩ := execPopOvf_next h
  exact ⟨hi.memory, hi.cmpWidth, hi.counterWidth, hi.matchWidth, hi.ieRunning, hi.frequency, hi.runningCommitted,
    hi.pendingMatch, hi.ramping, hi.errCode⟩

theorem execGetFreq_inv {s t : State} (hi : Inv s) (h : execGetFreq s = .next t) : Inv t := by
  obtain ⟨_, rfl⟩ := execGetFreq_next h
  exact hi.responding _ _

theorem execGetStatus_inv {s t : State} (hi : Inv s) (h : execGetStatus s = .next t) : Inv t := by
  obtain ⟨_, rfl⟩ := execGetStatus_next h
  exact hi.responding _ _

theorem execConvPeriod_inv {p : Word} {s t : State} (hi : Inv s) (h : execConvPeriod p s = .next t) : Inv t := by
  obtain ⟨_, _, _, rfl⟩ := execConvPeriod_next h
  exact hi.responding _ _

theorem execConvFreq_inv {f : Word} {s t : State} (hi : Inv s) (h : execConvFreq f s = .next t) : Inv t := by
  obtain ⟨_, _, _, rfl⟩ := execConvFreq_next h
  exact hi.responding _ _

/-- A change of the filters alone keeps it, if the history memory keeps its form. -/
theorem Inv.of_memory {s t : State} (hi : Inv s) (hc : t.cfg = s.cfg) (hr : t.ramp = s.ramp) (ht : t.timer = s.timer)
    (hf : t.fault = s.fault) (hm : Memory.wf t.cfg t.filters = true) : Inv t := by
  obtain ⟨cfg, ramp, timer, fault, filters, schedule, trace, response⟩ := t
  cases hc; cases hr; cases ht; cases hf
  exact ⟨hm, hi.cmpWidth, hi.counterWidth, hi.matchWidth, hi.ieRunning, hi.frequency, hi.runningCommitted,
    hi.pendingMatch, hi.ramping, hi.errCode⟩

theorem execFilterRead_inv {k : Channel} {w : Word} {s t : State} (hi : Inv s)
    (h : execFilterRead k w s = .next t) : Inv t := by
  have hm := execFilterRead_memory h hi.memory
  obtain ⟨_, ⟨_, rfl⟩ | ⟨p, v, f, g, _, _, _, rfl⟩⟩ := execFilterRead_next h
  · exact hi.trapped _
  · exact hi.of_memory rfl rfl rfl rfl hm

theorem execFilterInit_inv {k : Channel} {w : Word} {s t : State} (hi : Inv s)
    (h : execFilterInit k w s = .next t) : Inv t := by
  have hm := execFilterInit_memory h hi.memory
  obtain ⟨_, ⟨_, rfl⟩ | ⟨p, v, f, _, _, rfl⟩⟩ := execFilterInit_next h
  · exact hi.trapped _
  · exact hi.of_memory rfl rfl rfl rfl hm

/-- While the timer runs, `CMP` is a valid compare value (10_state.md R31, 42_timer_sequencer.md R118). -/
theorem Inv.cmp_valid {s : State} (hi : Inv s) (h : s.timer.running = true) : FrequencyOk s.cfg s.ramp.curFreq.toNat ∧
    1 ≤ s.timer.cmp.toNat ∧ s.timer.cmp.toNat ≤ 2 ^ s.cfg.compareWidth - 2 := by
  have hw := s.cfg.two_pow_width
  rcases hi.frequency with ⟨h0, _⟩ | ⟨hok, hv⟩
  · exact absurd h0 (hi.runningCommitted h)
  · obtain ⟨_, h2, h3⟩ := frequencyOk_iff.1 hok
    exact ⟨hok, by omega, by omega⟩

theorem stepTick_inv {s t : State} (hi : Inv s) (h : stepTick s = .next t) : Inv t := by
  have hw := s.cfg.two_pow_width
  obtain ⟨_, hrun, rfl⟩ := stepTick_next.1 h
  by_cases hc : s.timer.counter = s.timer.cmp
  · rw [TimerRegs.tick_match hc]
    refine ⟨hi.memory, hi.cmpWidth, ?_, hi.cmpWidth, hi.ieRunning, hi.frequency, hi.runningCommitted,
      fun _ => ⟨hrun, (hi.cmp_valid hrun).2⟩, hi.ramping, hi.errCode⟩
    show 0 < 2 ^ s.cfg.compareWidth
    omega
  · rw [TimerRegs.tick_count hc]
    have hl := Nat.mod_lt (s.timer.counter.toNat + 1) (y := 2 ^ s.cfg.compareWidth) (by omega)
    refine ⟨hi.memory, hi.cmpWidth, ?_, hi.matchWidth, hi.ieRunning, hi.frequency, hi.runningCommitted,
      hi.pendingMatch, hi.ramping, hi.errCode⟩
    show (BitVec.ofNat 32 _).toNat < _
    rw [toNat_ofNat_of_lt (by omega)]
    exact hl

/-- PULSE and the cleared `PENDING` keep it. -/
theorem Inv.pulse {s : State} (hi : Inv s) : Inv (pulse s) :=
  ⟨hi.memory, hi.cmpWidth, hi.counterWidth, hi.matchWidth, hi.ieRunning, hi.frequency, hi.runningCommitted,
    fun h => (nomatch h), hi.ramping, hi.errCode⟩

/-- The overrun correction keeps it (42_timer_sequencer.md R115). -/
theorem Inv.correctOverrun {s : State} (hi : Inv s) : Inv (correctOverrun s) := by
  have hc := s.timer.counter.isLt
  have hw := hi.counterWidth
  rw [correctOverrun_eq]
  refine ⟨hi.memory, hi.cmpWidth, ?_, hi.matchWidth, hi.ieRunning, hi.frequency, hi.runningCommitted,
    hi.pendingMatch, hi.ramping, hi.errCode⟩
  show (BitVec.ofNat 32 _).toNat < _
  rw [toNat_ofNat_of_lt (by omega)]
  exact lt_of_le_of_lt (Nat.min_le_left _ _) hw

/-- In a state with the invariant, an adjusted frequency is in range (42_timer_sequencer.md R118). -/
theorem Inv.adjusted_ok {s : State} (hi : Inv s) (hr : s.timer.running = true) (he : s.ramp.rampEn = true) :
    FrequencyOk s.cfg (adjustedFrequency s) := by
  have h1 := (hi.cmp_valid hr).1
  have h2 := (hi.ramping he).1
  rcases adjustedFrequency_between s with ⟨a, b⟩ | ⟨a, b⟩
  · exact frequencyOk_between h1 h2 a b
  · exact frequencyOk_between h2 h1 a b

theorem stepService_inv {s t : State} (hi : Inv s) (h : stepService s = .next t) : Inv t := by
  obtain ⟨hready, h | h | h | h⟩ := stepService_next h
  · obtain ⟨_, rfl⟩ := h
    exact hi.pulse.correctOverrun
  · obtain ⟨he, hp, rfl⟩ := h
    refine Inv.correctOverrun ?_
    have h32 := s.ramp.periodTicks.isLt
    refine ⟨hi.memory, hi.cmpWidth, hi.counterWidth, hi.matchWidth, hi.ieRunning, hi.frequency,
      hi.runningCommitted, fun h => (nomatch h), fun _ => ?_, hi.errCode⟩
    obtain ⟨a, b, c, d, _⟩ := hi.ramping he
    refine ⟨a, b, c, d, ?_⟩
    show (BitVec.ofNat 32 (accumulated s)).toNat < _
    rw [toNat_ofNat_of_lt (by omega)]
    exact hp
  · obtain ⟨he, h1, hp, c, hc, rfl⟩ := h
    refine Inv.correctOverrun ?_
    have h32 := s.ramp.periodTicks.isLt
    obtain ⟨hok, hv, c1, c2, c3⟩ := compareValue?_some hc
    have hw := s.cfg.two_pow_width
    have ec := toNat_ofNat_of_lt c3
    have ef := toNat_ofNat_of_lt (adjustedFrequency_lt s)
    obtain ⟨a, b, cc, d, _⟩ := hi.ramping he
    have hl := Nat.mod_lt (accumulated s) h1
    refine ⟨hi.memory, ?_, hi.counterWidth, hi.matchWidth, hi.ieRunning, .inr ⟨?_, ?_⟩, fun _ => ?_,
      fun h => (nomatch h), fun _ => ⟨a, b, cc, d, ?_⟩, hi.errCode⟩
    · show (BitVec.ofNat 32 c).toNat < 2 ^ s.cfg.compareWidth; rw [ec]; omega
    · show FrequencyOk s.cfg (BitVec.ofNat 32 _).toNat; rw [ef]; exact hok
    · show (BitVec.ofNat 32 c).toNat + 1 = periodTicksOf s.cfg (BitVec.ofNat 32 _).toNat; rw [ef, ec]; exact hv
    · show (BitVec.ofNat 32 _).toNat ≠ 0; rw [ef]; exact hok.1
    · show (BitVec.ofNat 32 (accumulated s % s.ramp.periodTicks.toNat)).toNat < _
      rw [toNat_ofNat_of_lt (by omega)]
      exact hl
  · obtain ⟨_, _, _, _, rfl⟩ := h
    exact hi.pulse.trapped _

end Sys2Proof.Machine
end

