-- ==== Sys2Proof/Laws/PerInstr.lean ====
section
/-!
SUPPORT. The family EncodeFields: what the encoder writes into the fields of 30_encoding.md R63, for each command.
-/

namespace Sys2Proof.Laws.EncodeFields

/-- The encoding has no reserved bit, the command's opcode and its channel, which is 0 unless the command uses it, and the opcode
map reads the command from them (30_encoding.md R63 to R66). -/
def Statement (i : Instr) : Prop :=
  rsvField (encode i).cmdw = 0 ∧ opcField (encode i).cmdw = i.opcode ∧ chField (encode i).cmdw = i.channel ∧
    (i.usesChannel = false → i.channel = 0) ∧
    selectCommand i.opcode i.channel (encode i).arg0 (encode i).arg1 = some i

/-- The part every command shares. -/
theorem fields_of (i : Instr) (hc : i.usesChannel = false → i.channel = 0)
    (hs : selectCommand i.opcode i.channel (encode i).arg0 (encode i).arg1 = some i) : Statement i :=
  ⟨rsvField_commandWord _ _, opcField_commandWord _ _, chField_commandWord _ _, hc, hs⟩

theorem start : Statement .start := fields_of _ (fun _ => rfl) rfl
theorem stop : Statement .stop := fields_of _ (fun _ => rfl) rfl
theorem setFreq (f : Word) : Statement (.setFreq f) := fields_of _ (fun _ => rfl) rfl
theorem setRamp (f r : Word) : Statement (.setRamp f r) := fields_of _ (fun _ => rfl) rfl
theorem getFreq : Statement .getFreq := fields_of _ (fun _ => rfl) rfl
theorem popOvf : Statement .popOvf := fields_of _ (fun _ => rfl) rfl
theorem getStatus : Statement .getStatus := fields_of _ (fun _ => rfl) rfl
theorem filterRead (k : Channel) (v : Word) : Statement (.filterRead k v) := fields_of _ (fun h => nomatch h) rfl
theorem filterInit (k : Channel) (v : Word) : Statement (.filterInit k v) := fields_of _ (fun h => nomatch h) rfl
theorem convPeriod (p : Word) : Statement (.convPeriod p) := fields_of _ (fun _ => rfl) rfl
theorem convFreq (f : Word) : Statement (.convFreq f) := fields_of _ (fun _ => rfl) rfl

end Sys2Proof.Laws.EncodeFields
end

