-- ==== Sys2Proof/Machine/Assembler.lean ====
section
/-!
DEFINITION. The assembler syntax of 30_encoding.md R70, over lists of characters. What R70 leaves to an assembler (white space,
numbers too large for their field) is fixed by log 18.
-/

namespace Sys2Proof.Machine

/-- White space: space and tab (log 18). -/
def isBlank (ch : Char) : Bool := ch == ' ' || ch == '\t'

/-- The characters without the white space at either end. -/
def trimBlank (l : List Char) : List Char := ((l.dropWhile isBlank).reverse.dropWhile isBlank).reverse

/-- The value of a digit in base `base` (at most 16); letters of either case (30_encoding.md R70, log 18). -/
def digitValue? (base : Nat) (ch : Char) : Option Nat :=
  let n := ch.toNat
  let v :=
    if 48 ≤ n ∧ n ≤ 57 then n - 48
    else if 97 ≤ n ∧ n ≤ 102 then n - 87
    else if 65 ≤ n ∧ n ≤ 70 then n - 55
    else 16
  if v < base then some v else none

/-- The value of a non-empty run of digits. -/
def digits? (base : Nat) (l : List Char) : Option Nat :=
  if l.isEmpty then none
  else l.foldl (fun acc ch => acc.bind fun n => (digitValue? base ch).map fun d => n * base + d) (some 0)

/-- An operand: an unsigned decimal or `0x` hexadecimal number (30_encoding.md R70). -/
def operand? (l : List Char) : Option Nat :=
  match trimBlank l with
  | '0' :: 'x' :: rest => digits? 16 rest
  | l => digits? 10 l

/-- The text between commas, in order: never an empty list. -/
def splitCommas : List Char → List (List Char)
  | [] => [[]]
  | ch :: rest =>
    match splitCommas rest with
    | [] => [[ch]]
    | piece :: pieces => if ch == ',' then [] :: piece :: pieces else (ch :: piece) :: pieces

/-- The operands of a line, none where the rest of the line is blank. -/
def operands? (l : List Char) : Option (List Nat) :=
  if (trimBlank l).isEmpty then some [] else (splitCommas l).mapM operand?

/-- A number that fits an operand word (30_encoding.md R64). -/
def wordOperand? (n : Nat) : Option Word := if n < 2 ^ 32 then some (BitVec.ofNat 32 n) else none

/-- A number that fits the `CH` field (30_encoding.md R64). -/
def channelOperand? (n : Nat) : Option Channel := if n < 16 then some (BitVec.ofNat 4 n) else none

/-- The command a mnemonic and its operands name (30_encoding.md R70). -/
def commandOf? (mnemonic : List Char) (operands : List Nat) : Option Instr :=
  match operands with
  | [] =>
    if mnemonic = "START".toList then some .start
    else if mnemonic = "STOP".toList then some .stop
    else if mnemonic = "GET_FREQ".toList then some .getFreq
    else if mnemonic = "POP_OVF".toList then some .popOvf
    else if mnemonic = "GET_STATUS".toList then some .getStatus
    else none
  | [a] =>
    (wordOperand? a).bind fun v =>
      if mnemonic = "SET_FREQ".toList then some (.setFreq v)
      else if mnemonic = "CONV_PERIOD".toList then some (.convPeriod v)
      else if mnemonic = "CONV_FREQ".toList then some (.convFreq v)
      else none
  | [a, b] =>
    (wordOperand? b).bind fun v =>
      if mnemonic = "SET_RAMP".toList then (wordOperand? a).map fun f => .setRamp f v
      else if mnemonic = "FILTER_READ".toList then (channelOperand? a).map fun k => .filterRead k v
      else if mnemonic = "FILTER_INIT".toList then (channelOperand? a).map fun k => .filterInit k v
      else none
  | _ => none

/-- One line of assembly: the transaction of its command, after `;` a comment (30_encoding.md R70). None: the line holds no
command of the syntax. -/
def assemble? (line : List Char) : Option Transaction :=
  let text := trimBlank (line.takeWhile (· != ';'))
  let mnemonic := text.takeWhile fun ch => !isBlank ch
  let rest := text.dropWhile fun ch => !isBlank ch
  ((operands? rest).bind (commandOf? mnemonic)).map encode

end Sys2Proof.Machine
end

