-- ==== Sys2Proof/Tests/Slice0.lean ====
section
/-!
SUPPORT. Tests of the model, their expected values from spec/ (the vector's name of 95_test_vectors.md stands in the comment), and
a witness for the hypotheses of every statement that has any.
-/

namespace Sys2Proof.Tests

open Sys2Proof Sys2Proof.Machine

/-! ## Helpers -/

/-- The next state, where there is one. -/
def next? (r : Result) : Option State :=
  match r with
  | .next s => some s
  | .fault _ => none
  | .refused _ => none

/-- The fault, where there is one. -/
def fault? (r : Result) : Option Fault :=
  match r with
  | .next _ => none
  | .fault x => some x
  | .refused _ => none

/-- The response of a command, as numbers. -/
def answer (i : Instr) (s : State) : Option (Nat × Bool) :=
  ((next? (exec i s)).bind State.response).map fun r => (r.result.toNat, r.ok)

/-- The state after vector C2: `SET_FREQ 1000` from reset. -/
def at1000 : State :=
  { State.reset with
    ramp := { RampState.reset with curFreq := 1000 }
    timer := { TimerRegs.reset with cmp := 1999 } }

/-- The state of vector C9 with `ACC_TICKS = 1995`: `SET_RAMP 1500, 1000` armed. -/
def armed1500 : State :=
  { at1000 with
    ramp :=
      { at1000.ramp with rampEn := true, target := 1500, stepHz := 1, periodTicks := 2000, accTicks := 1995 } }

/-- `s` with the timer running from this counter. -/
def running (s : State) (counter : Word) : State :=
  { s with timer := { s.timer with running := true, ie := true, counter := counter } }

/-- `s` with a match of this latched compare value not yet serviced. -/
def pendingWith (s : State) (counter matchCmp : Word) : State :=
  let r := running s counter
  { r with timer := { r.timer with pending := true, matchCmp := matchCmp } }

/-- A row of the SERVICE table (95_test_vectors.md 2.5) before the step. -/
def serviceRow (cur cmp target stepHz periodTicks accTicks matchCmp counter : Word) : State :=
  let s : State := { State.reset with timer := { TimerRegs.reset with cmp := cmp } }
  { pendingWith s counter matchCmp with
    ramp :=
      { curFreq := cur, rampEn := true, target := target, stepHz := stepHz, periodTicks := periodTicks
        accTicks := accTicks, ovfTicks := 0 } }

/-- What the SERVICE table lists after the step. -/
def serviceAfter (s : State) : Option (Nat × Nat × Nat × Bool) :=
  (next? (stepService s)).map fun t =>
    (t.ramp.curFreq.toNat, t.timer.cmp.toNat, t.ramp.accTicks.toNat, t.ramp.rampEn)

/-- The block halted with code 2. -/
def halted : State := at1000.afterTrap 2

/-- A configuration with 10-bit samples and one filter, otherwise the reference one. -/
def narrow : Params :=
  { Params.reference with
    sampleWidth := 10
    filters := [{ capacity := 1, stickyRange := 0, minClamp := 10, maxClamp := 1013 }] }

theorem narrow_legal : narrow.legal = true := by decide

/-- The block right after power-up in the narrow configuration. -/
def narrowReset : State := .powerUp { toParams := narrow, legal := narrow_legal }

/-! ## Configuration -/

/-- 00_scope.md R9 to R11 at the reference values (95_test_vectors.md, head). -/
theorem test_reference_constants :
    Config.reference.tickNs = 500 ∧ Config.reference.regMax = 65535 ∧ Config.reference.cmpMin = 1 ∧
      Config.reference.cmpMax = 65534 := by decide

/-- 00_scope.md R7, R8: the bounds of W, NF, SW, CAPACITY, the clamp range and TICK_NS. -/
theorem test_illegal_configurations :
    Config.ofParams? Params.reference = some Config.reference ∧
    Config.ofParams? { Params.reference with compareWidth := 1 } = none ∧
    Config.ofParams? { Params.reference with compareWidth := 32 } = none ∧
    Config.ofParams? { Params.reference with filters := [] } = none ∧
    Config.ofParams? { Params.reference with sampleWidth := 17 } = none ∧
    Config.ofParams? { Params.reference with filters := [⟨0, 0, 0, 1⟩] } = none ∧
    Config.ofParams? { Params.reference with filters := [⟨1, 0, 5, 5⟩] } = none ∧
    Config.ofParams? { Params.reference with clockHz := 1000000001, prescaler := 1 } = none := by decide

/-! ## WellFormed: each check refuses an ill-formed term -/

/-- 30_encoding.md R66: the channel check, at NF and below it. -/
theorem test_wf_channel :
    (Instr.filterRead 2 0).wf Config.reference = false ∧ (Instr.filterInit 2 0).wf Config.reference = false ∧
      (Instr.filterRead 1 0).wf Config.reference = true ∧ (Instr.filterInit 1 0).wf Config.reference = true := by decide

/-- 30_encoding.md R67 (d): the sample check, at `2^SW` and below it, for SW 16 and SW 10. -/
theorem test_wf_sample :
    (Instr.filterRead 0 65536).wf Config.reference = false ∧ (Instr.filterInit 0 65536).wf Config.reference = false ∧
      (Instr.filterInit 0 65535).wf Config.reference = true ∧ (Instr.filterRead 0 1024).wf narrowReset.cfg = false ∧
      (Instr.filterRead 0 1023).wf narrowReset.cfg = true := by decide

/-! ## Decode -/

/-- Bits of a FILTER_READ word written out (30_encoding.md R63, R65): RSV, then CH = 1, then OPC. -/
theorem test_decode_filter_bits :
    decode ⟨0b00000000000000000000000100010000, 500, 7⟩ = .ok (.filterRead 1 500) ∧
      decode ⟨0b00000000000000000000000000010001, 512, 0⟩ = .ok (.filterInit 0 512) ∧
      decode ⟨0b00000000000000000000111100010000, 0, 0⟩ = .ok (.filterRead 15 0) := by decide

/-- Bits of one word of each other family. -/
theorem test_decode_other_bits :
    decode ⟨0b00000000000000000000000000000100, 1500, 1000⟩ = .ok (.setRamp 1500 1000) ∧
      decode ⟨0b00000000000000000000000000000110, 9, 9⟩ = .ok .popOvf ∧
      decode ⟨0b00000000000000000000000000100001, 2000, 9⟩ = .ok (.convFreq 2000) := by decide

/-- The examples of 30_encoding.md R72, through the decoder and back. -/
theorem test_decode_examples : Obligations.WrittenOutWordsDecode := by
  unfold Obligations.WrittenOutWordsDecode
  decide

theorem test_encode_examples :
    encode (.setRamp 1500 1000) = ⟨0x00000004, 0x000005DC, 0x000003E8⟩ ∧
      encode (.filterRead 1 500) = ⟨0x00000110, 0x000001F4, 0⟩ ∧ encode .getStatus = ⟨0x00000007, 0, 0⟩ := by decide

/-- Vectors D1 to D6: each rejected by its name. -/
theorem test_decode_rejects :
    decode ⟨0x00000000, 0, 0⟩ = .error .unassignedOpcode ∧ decode ⟨0x00000008, 0, 0⟩ = .error .unassignedOpcode ∧
    decode ⟨0x000000FF, 0, 0⟩ = .error .unassignedOpcode ∧ decode ⟨0x00001001, 0, 0⟩ = .error .reservedBits ∧
    decode ⟨0x80000005, 0, 0⟩ = .error .reservedBits ∧ decode ⟨0x00000101, 0, 0⟩ = .error .channelNotZero := by decide

/-- Vectors D4, D7, D8, D12: the trap of the port. -/
theorem test_port_traps :
    next? (stepHost ⟨0x00001001, 0, 0⟩ at1000) = some (at1000.afterTrap 3) ∧
    next? (stepHost ⟨0x00000210, 500, 0⟩ at1000) = some (at1000.afterTrap 3) ∧
    next? (stepHost ⟨0x00000010, 65536, 0⟩ at1000) = some (at1000.afterTrap 3) ∧
    next? (stepHost ⟨0x00000F10, 0, 0⟩ at1000) = some (at1000.afterTrap 3) := by decide

/-- The opcode table's bit numbering: CMDW, then ARG0, then ARG1. -/
theorem test_table_word :
    decodeTableWord 32 0x00000004 = some (.setRamp 0 0) ∧
    decodeTableWord 96 0x000003E8000005DC00000004 = some (.setRamp 1500 1000) ∧
    decodeTableWord 32 0x00000008 = none := by decide

/-- The presented word is the next step's (log 13). -/
theorem test_fetch_word :
    next? (step (State.reset.withFetchWord 64 0x000003E800000003)) =
      some { at1000 with response := some ⟨0, true⟩ } := by decide

/-- Bytes of a port word on a bus, in both orders (20_memory.md R47). -/
theorem test_bus_bytes :
    busBytes .little 0x11223344 = [0x44, 0x33, 0x22, 0x11] ∧ ofBusBytes .big [0x11, 0x22, 0x33, 0x44] = some 0x11223344 := by
  decide

/-- 30_encoding.md R70 with the examples of R72. -/
theorem test_assembler :
    assemble? "SET_RAMP 1500, 1000 ; arm".toList = some ⟨0x00000004, 1500, 1000⟩ ∧
    assemble? "FILTER_READ 1, 0x1F4".toList = some ⟨0x00000110, 500, 0⟩ ∧
    assemble? "STOP".toList = some ⟨0x00000002, 0, 0⟩ ∧ assemble? "STOP 1".toList = none := by decide

/-! ## Converter -/

/-- Vectors CP2, CP3, CP7, CP8. -/
theorem test_conv_period :
    answer (.convPeriod 499) .reset = some (0, false) ∧ answer (.convPeriod 500) .reset = some (1, true) ∧
    answer (.convPeriod 32767499) .reset = some (65534, true) ∧ answer (.convPeriod 32767500) .reset = some (0, false) := by
  decide

/-- Vectors CF1, CF3, CF4, CF12, CF13, CF15. -/
theorem test_conv_freq :
    answer (.convFreq 0) .reset = some (0, false) ∧ answer (.convFreq 30) .reset = some (0, false) ∧
    answer (.convFreq 31) .reset = some (64515, true) ∧ answer (.convFreq 1000000) .reset = some (1, true) ∧
    answer (.convFreq 1000001) .reset = some (0, false) ∧ answer (.convFreq 4294967295) .reset = some (0, false) := by decide

/-- Vectors CF13 and CF15: the difference is taken over the integers. -/
theorem test_ticks_for_frequency :
    ticksForFrequency .reference 1000001 = some 0 ∧ ticksForFrequency .reference 4294967295 = some (-1) := by decide

/-! ## Ramp controller -/

/-- Vectors RP1, RP4, RP5, RP10, RP14, RP18. -/
theorem test_ramp_params :
    rampParams .reference 0 = none ∧ rampParams .reference 30 = none ∧ rampParams .reference 31 = some (1, 64516) ∧
    rampParams .reference 1001 = some (2, 3996) ∧ rampParams .reference 123457 = some (124, 2008) ∧
    rampParams .reference 4294967295 = some (4294968, 2000) := by decide

/-- Vector C1: START with no committed frequency. -/
theorem test_start_traps : next? (exec .start .reset) = some (State.reset.afterTrap 1) := by decide

/-- Vector C6, from a counter and a pending event that START discards (70_reset_and_hazards.md R168). -/
theorem test_start_arms : (next? (exec .start (pendingWith at1000 77 5))).map State.timer =
    some { cmp := 1999, counter := 0, running := true, ie := true, pending := false, matchCmp := 5 } := by decide

/-- Vector C17: STOP keeps the counter, the compare register and the frequency. -/
theorem test_stop : next? (exec .stop (pendingWith armed1500 5 1999)) =
    some { armed1500 with
      ramp := { armed1500.ramp with rampEn := false }
      timer := { at1000.timer with counter := 5, matchCmp := 1999 }
      response := some ⟨0, true⟩ } := by decide

/-- Vector C8: SET_FREQ ends the ramp and keeps its parameters. -/
theorem test_set_freq : next? (exec (.setFreq 2000) armed1500) =
    some { armed1500 with
      ramp := { armed1500.ramp with curFreq := 2000, rampEn := false }
      timer := { armed1500.timer with cmp := 999 }
      response := some ⟨0, true⟩ } := by decide

/-- Vectors C3, C4, C5. -/
theorem test_set_freq_traps :
    next? (exec (.setFreq 30) .reset) = some (State.reset.afterTrap 1) ∧
    next? (exec (.setFreq 1000001) .reset) = some (State.reset.afterTrap 1) ∧
    next? (exec (.setFreq 0) .reset) = some (State.reset.afterTrap 1) := by decide

/-- `STEP_HZ`, `PERIOD_TICKS` and `ACC_TICKS` after a SET_RAMP, where the ramp is armed. -/
def armedWith (f r : Word) (s : State) : Option (Nat × Nat × Nat) :=
  (next? (exec (.setRamp f r) s)).bind fun t =>
    if t.ramp.rampEn && t.ramp.target == f then
      some (t.ramp.stepHz.toNat, t.ramp.periodTicks.toNat, t.ramp.accTicks.toNat)
    else none

/-- Vectors C9 to C11: the accumulator survives exactly the same parameters. -/
theorem test_set_ramp :
    armedWith 1500 1000 at1000 = some (1, 2000, 0) ∧ armedWith 1500 1000 armed1500 = some (1, 2000, 1995) ∧
    armedWith 1500 1001 armed1500 = some (2, 3996, 0) := by decide

/-- Vectors C13 to C16: the target is checked before the rate. -/
theorem test_set_ramp_traps :
    next? (exec (.setRamp 0 0) at1000) = some (at1000.afterTrap 1) ∧
    next? (exec (.setRamp 1500 0) at1000) = some (at1000.afterTrap 2) ∧
    next? (exec (.setRamp 1500 30) at1000) = some (at1000.afterTrap 2) ∧
    next? (exec (.setRamp 30 1000) at1000) = some (at1000.afterTrap 1) := by decide

/-- Vectors C8, C22. -/
theorem test_get_freq : answer .getFreq at1000 = some (1000, true) ∧ answer .getFreq .reset = some (0, true) := by decide

/-- Vector C20. -/
theorem test_pop_ovf :
    answer .popOvf { at1000 with ramp := { at1000.ramp with ovfTicks := 501 } } = some (501, true) ∧
    (next? (exec .popOvf { at1000 with ramp := { at1000.ramp with ovfTicks := 501 } })).map State.ramp =
      some at1000.ramp := by decide

/-- Vectors C7, C22, C23, and each bit of the word alone (41_ramp_controller.md R98). -/
theorem test_get_status :
    answer .getStatus .reset = some (0, true) ∧ answer .getStatus (running at1000 0) = some (3, true) ∧
    answer .getStatus (running armed1500 0) = some (7, true) ∧ answer .getStatus armed1500 = some (4, true) ∧
    answer .getStatus (pendingWith at1000 0 0) = some (11, true) := by decide

/-! ## TICK and SERVICE -/

/-- Vectors T1, T2, T4, T5. -/
theorem test_tick :
    (next? (stepTick (running at1000 1998))).map State.timer = some (running at1000 1999).timer ∧
    (next? (stepTick (running at1000 1999))).map State.timer = some (pendingWith at1000 0 1999).timer ∧
    (next? (stepTick (running at1000 65535))).map State.timer = some (running at1000 0).timer ∧
    (next? (stepTick (pendingWith at1000 1999 7))).map State.timer = some (pendingWith at1000 0 1999).timer := by decide

/-- Rows S1 to S5 of 95_test_vectors.md 2.5. -/
theorem test_service_adjusts :
    serviceAfter (serviceRow 1000 1999 1500 1 2000 0 1999 5) = some (1000, 1999, 1999, true) ∧
    serviceAfter (serviceRow 1000 1999 1500 1 2000 1 1999 5) = some (1001, 1997, 0, true) ∧
    serviceAfter (serviceRow 1000 1999 1003 1 600 1 1999 5) = some (1003, 1993, 200, false) ∧
    serviceAfter (serviceRow 1000 1999 1002 1 600 1 1999 5) = some (1002, 1995, 200, false) ∧
    serviceAfter (serviceRow 2000 999 1000 10 2000 500 1999 5) = some (1990, 1004, 499, true) := by decide

/-- Rows S6 to S9. -/
theorem test_service_arrives :
    serviceAfter (serviceRow 1005 1989 1000 10 2000 500 1999 5) = some (1000, 1999, 499, false) ∧
    serviceAfter (serviceRow 1000 1999 1000 1 2000 1 1999 5) = some (1000, 1999, 0, false) ∧
    serviceAfter (serviceRow 1000 1999 1000 1 2000 0 1999 5) = some (1000, 1999, 1999, true) ∧
    serviceAfter (serviceRow 31 64515 1000 100 2000 0 64515 5) = some (1000, 1999, 515, false) := by decide

/-- Counter and `OVF_TICKS` after a SERVICE. -/
def overrunAfter (s : State) : Option (Nat × Nat) :=
  (next? (stepService s)).map fun t => (t.timer.counter.toNat, t.ramp.ovfTicks.toNat)

/-- Rows O1 to O5. -/
theorem test_service_overrun :
    overrunAfter { pendingWith at1000 2100 1999 with ramp := { at1000.ramp with ovfTicks := 7 } } = some (1999, 108) ∧
    overrunAfter { pendingWith at1000 2100 1999 with ramp := { at1000.ramp with ovfTicks := 4294967245 } } =
      some (1999, 4294967295) ∧
    overrunAfter (pendingWith at1000 1999 1999) = some (1999, 0) ∧ overrunAfter (pendingWith at1000 5 1999) = some (5, 0) ∧
    overrunAfter (serviceRow 1000 1999 1500 1 2000 1 1999 1998) = some (1997, 1) := by decide

/-- 42_timer_sequencer.md R116: the trap of a SERVICE, in a state no run reaches, keeps the PULSE and the cleared `PENDING`. -/
theorem test_service_traps : (next? (stepService (serviceRow 1000 1999 10 2000 2000 1 1999 5))).map
    (fun t => (t.timer.pending, t.ramp.curFreq.toNat, t.fault, t.trace)) =
      some (false, 1000, ⟨true, 1⟩, [.pulse, .trap 1]) := by decide

/-- 30_encoding.md R71: RUN_EVENT from a pending event, with one late tick. -/
theorem test_run_event : (next? (runDirective (.runEvent 1) (pendingWith at1000 7 1999))).map
    (fun t => (t.timer.counter.toNat, t.timer.pending, t.trace)) = some (8, false, [.pulse]) := by decide

/-! ## Sensor filter -/

/-- Filter `k` after its seed and one sample: the response, and `STICKY`. -/
def seededRead (k : Channel) (seed v : Word) : Option (Nat × Nat) :=
  (next? (exec (.filterInit k seed) .reset)).bind fun s =>
    (next? (exec (.filterRead k v) s)).bind fun t =>
      t.response.bind fun r => (t.filters[k.toNat]?).map fun f => (r.result.toNat, f.sticky.toNat)

/-- Vectors FL3, FL4, FL9, FL10, FL13, FL15, FL17. -/
theorem test_filter_read :
    seededRead 0 9 9 = some (0, 9) ∧ seededRead 0 1014 1014 = some (1023, 1014) ∧ seededRead 0 100 228 = some (91, 100) ∧
    seededRead 0 100 260 = some (96, 105) ∧ seededRead 1 500 532 = some (511, 500) ∧
    seededRead 1 500 536 = some (523, 509) ∧ seededRead 1 65535 65535 = some (1023, 65535) := by decide

/-- Vector FL6: the ring and its index, from reset. -/
theorem test_filter_read_ring : (next? (exec (.filterRead 1 500) .reset)).map (fun t => t.filters[1]?) =
    some (some { hist := [500, 0, 0, 0], histIdx := 1, sticky := 125 }) ∧ answer (.filterRead 0 512) .reset = some (6, true) := by
  decide

/-- 43_sensor_filter.md R131: the seed, then seed 0 as the reset state again. -/
theorem test_filter_init :
    (next? (exec (.filterInit 1 500) .reset)).map (fun t => t.filters[1]?) =
      some (some { hist := [500, 500, 500, 500], histIdx := 0, sticky := 500 }) ∧
    ((next? (exec (.filterInit 1 500) .reset)).bind fun t => next? (exec (.filterInit 1 0) t)).map State.filters =
      some State.reset.filters := by decide

/-- The remap row of 95_test_vectors.md 2.6 for filter 1. -/
theorem test_remap : [100, 101, 500, 899, 900].map (remap Config.reference ⟨4, 8, 100, 900⟩) = [0, 1, 511, 1021, 1023] := by
  decide

/-! ## The halted state and RESET -/

/-- Program P5, lines 3 to 5. -/
theorem test_halt_and_reset :
    fault? (exec .getFreq halted) = some .halted ∧ fault? (agentStep .tick halted) = some .halted ∧
    (next? (agentStep .reset halted)).map (fun t => (t.ramp, t.timer, t.fault, t.trace)) =
      some (.reset, .reset, .reset, [.trap 2]) := by decide

/-! ## Witnesses: the hypotheses of each statement can be met -/

/-- The next state, or the reset state where there is none. -/
def nextState (r : Result) : State := (next? r).getD .reset

theorem eq_next {r : Result} (h : (next? r).isSome = true) : r = .next (nextState r) := by
  cases r with
  | next s => rfl
  | fault x => cases h
  | refused x => cases h

/-- The invariant's clauses, each decided. -/
theorem inv_of {s : State} (h : Memory.wf s.cfg s.filters = true ∧
    (s.timer.cmp.toNat < 2 ^ s.cfg.compareWidth ∧ s.timer.counter.toNat < 2 ^ s.cfg.compareWidth ∧
      s.timer.matchCmp.toNat < 2 ^ s.cfg.compareWidth ∧ s.timer.ie = s.timer.running) ∧
    (FrequencyOk s.cfg s.ramp.curFreq.toNat ∧ s.timer.cmp.toNat + 1 = periodTicksOf s.cfg s.ramp.curFreq.toNat) ∧
    s.timer.running = true ∧
    (1 ≤ s.timer.matchCmp.toNat ∧ s.timer.matchCmp.toNat ≤ 2 ^ s.cfg.compareWidth - 2) ∧
    (s.ramp.rampEn = true → FrequencyOk s.cfg s.ramp.target.toNat ∧ 1 ≤ s.ramp.stepHz.toNat ∧
      1 ≤ s.ramp.periodTicks.toNat ∧ s.ramp.periodTicks.toNat ≤ 2 ^ s.cfg.compareWidth - 2 ∧
      s.ramp.accTicks.toNat < s.ramp.periodTicks.toNat) ∧
    (s.fault.halted = false ∧ s.fault.errCode = 0)) : Inv s :=
  have ⟨h1, ⟨h2, h3, h4, h5⟩, h6, h7, h8, h9, h10⟩ := h
  ⟨h1, h2, h3, h4, h5, .inr h6, fun _ => h6.1.1, fun _ => ⟨h7, h8⟩, h9, .inl h10⟩

/-- `n` steps of the schedule. -/
def advance : Nat → State → State
  | 0, s => s
  | n + 1, s => nextState (step (advance n s))

/-- The states of a run from power-up are reachable. -/
theorem reachable_advance {s : State} (h : Reachable s) : ∀ n,
    (∀ m, m < n → (next? (step (advance m s))).isSome = true) → Reachable (advance n s)
  | 0, _ => h
  | n + 1, hn => .step (reachable_advance h n fun m hm => hn m (by omega)) (eq_next (hn n (by omega)))

/-- Power-up with a schedule that arms a ramp, starts the timer and comes to a match, ready for its SERVICE. -/
def scripted : State :=
  { State.powerUp .reference with
    schedule := [.host (encode (.setFreq 1000000)), .host (encode (.setRamp 999999 1000)), .host (encode .start),
      .tick, .tick, .service] }

theorem reachable_scripted : Reachable (advance 5 scripted) :=
  reachable_advance (.powerUp .reference _) 5 (by decide)

theorem witness_IllegalTransactionTrapsAndChangesNothing :
    at1000.fault.halted = false ∧ IllegalTransaction at1000.cfg ⟨0x00001001, 0, 0⟩ ∧
    IllegalTransaction at1000.cfg ⟨0x00000000, 0, 0⟩ ∧ IllegalTransaction at1000.cfg ⟨0x00000210, 500, 0⟩ ∧
    IllegalTransaction at1000.cfg ⟨0x00000101, 0, 0⟩ ∧ IllegalTransaction at1000.cfg ⟨0x00000010, 65536, 0⟩ :=
  ⟨by decide, .inl (by decide), .inr (.inl (by decide)), .inr (.inr (.inl (by decide))),
    .inr (.inr (.inr (.inl (by decide)))), .inr (.inr (.inr (.inr (by decide))))⟩

theorem witness_LegalTransactionRunsItsCommand : ¬ IllegalTransaction at1000.cfg ⟨0x00000110, 65535, 7⟩ ∧
    ¬ IllegalTransaction at1000.cfg ⟨0x00000021, 65536, 0⟩ := by
  constructor
  · rintro (h | h | h | h | h) <;> revert h <;> decide
  · rintro (h | h | h | h | h) <;> revert h <;> decide

theorem witness_StepRunsDecodedCommand :
    ({ State.reset with schedule := [.host ⟨0x00000003, 1000, 0⟩] } : State).schedule = .host ⟨0x00000003, 1000, 0⟩ :: [] ∧
      decode ⟨0x00000003, 1000, 0⟩ = .ok (.setFreq 1000) := by decide

theorem witness_StepTakesTheScheduledAgent :
    State.reset.schedule = [] ∧ (advance 3 scripted).schedule = .tick :: [.tick, .service] ∧
    (advance 5 scripted).schedule = .service :: [] ∧
    ({ State.reset with schedule := [.reset] } : State).schedule = .reset :: [] := by decide

theorem witness_ValidFrequenciesFormAnInterval :
    1 ≤ 31 ∧ 31 ≤ 1000000 ∧ (compareValue? Config.reference 31).isSome = true ∧
    (compareValue? Config.reference 1000000).isSome = true ∧ (compareValue? Config.reference 30).isSome = false ∧
    (compareValue? Config.reference 1000001).isSome = false := by decide

theorem witness_CompareValueWithinOneTickOfThePeriod : compareValue? Config.reference 31 = some 64515 ∧
    compareValue? Config.reference 1000000 = some 1 := by decide

theorem witness_ConvPeriodAnswers :
    State.reset.fault.halted = false ∧ 500 / State.reset.cfg.tickNs = 1 ∧
    32767499 / State.reset.cfg.tickNs = 2 ^ State.reset.cfg.compareWidth - 2 ∧
    32767500 / State.reset.cfg.tickNs = 2 ^ State.reset.cfg.compareWidth - 1 := by decide

theorem witness_ConvFreqAnswers :
    State.reset.fault.halted = false ∧ FrequencyOk State.reset.cfg 31 ∧
    FrequencyOk State.reset.cfg 1000000 ∧ ¬ FrequencyOk State.reset.cfg 30 ∧ ¬ FrequencyOk State.reset.cfg 1000001 ∧
    ¬ FrequencyOk State.reset.cfg 0 := by decide

theorem witness_RampParamsAreTheSmallestStep :
    RampParamsAre Config.reference 31 1 64516 ∧ RampParamsAre Config.reference 1001 2 3996 := by decide

theorem witness_StartArmsTheTimerOrTraps :
    at1000.fault.halted = false ∧ FrequencyOk at1000.cfg at1000.ramp.curFreq.toNat ∧
    State.reset.fault.halted = false ∧ ¬ FrequencyOk State.reset.cfg State.reset.ramp.curFreq.toNat := by decide

theorem witness_StopDisarmsTheTimer : (running at1000 0).fault.halted = false := by decide

theorem witness_SetFreqCommitsOrTraps :
    at1000.fault.halted = false ∧ FrequencyOk at1000.cfg (31 : Word).toNat ∧
    ¬ FrequencyOk at1000.cfg (30 : Word).toNat := by decide

/-- The rate clauses at the lowest valid rate, 31, and the rate below it (vectors RP4, RP5). -/
theorem witness_SetRampArmsOrTraps :
    at1000.fault.halted = false ∧ ¬ FrequencyOk at1000.cfg (30 : Word).toNat ∧
    FrequencyOk at1000.cfg (1500 : Word).toNat ∧ RampParamsAre at1000.cfg (31 : Word).toNat 1 64516 ∧
    ∀ n p, ¬ RampParamsAre at1000.cfg (30 : Word).toNat n p := by
  refine ⟨by decide, by decide, by decide, by decide, fun n p ⟨_, ⟨h1, h2, h3⟩, _, hp, _, hm⟩ => ?_⟩
  change 30 * 1000000 ≤ n * 1000000000 at h2
  change n = 1 ∨ (n - 1) * 1000000000 < 30 * 1000000 at h3
  change p = n * 1000000000 / 30 / 500 at hp
  change p ≤ 65534 at hm
  omega

/-- For GetFreqReadsTheLiveFrequency, PopOvfReadsAndClears and GetStatusReadsTheFlags. -/
theorem witness_reads :
    at1000.fault.halted = false ∧ (running armed1500 5).fault.halted = false := by decide

theorem witness_TrappingCommandWritesNothing :
    exec .start .reset = .next (nextState (exec .start .reset)) ∧ (nextState (exec .start .reset)).fault.halted = true :=
  ⟨eq_next (by decide), by decide⟩

theorem witness_CommandsTrapWithTheirCodes :
    exec (.setRamp 1500 0) at1000 = .next (nextState (exec (.setRamp 1500 0) at1000)) ∧
    (nextState (exec (.setRamp 1500 0) at1000)).fault = ⟨true, 2⟩ ∧
    exec (.filterRead 2 0) at1000 = .next (nextState (exec (.filterRead 2 0) at1000)) ∧
    (nextState (exec (.filterRead 2 0) at1000)).fault = ⟨true, 3⟩ :=
  ⟨eq_next (by decide), by decide, eq_next (by decide), by decide⟩

theorem witness_EveryCommandTakesItsStep :
    at1000.fault.halted = false ∧ Memory.wf at1000.cfg at1000.filters = true := by decide

theorem witness_RepeatedCommandsChangeNothing :
    exec (.setRamp 1500 1000) at1000 = .next (nextState (exec (.setRamp 1500 1000) at1000)) ∧
    (nextState (exec (.setRamp 1500 1000) at1000)).fault.halted = false ∧
    exec .stop armed1500 = .next (nextState (exec .stop armed1500)) ∧
    (nextState (exec .stop armed1500)).fault.halted = false :=
  ⟨eq_next (by decide), by decide, eq_next (by decide), by decide⟩

theorem witness_RearmingTheSameRampIsInvisible :
    let t := nextState (exec (.setRamp 1500 1000) at1000)
    exec (.setRamp 1500 1000) at1000 = .next t ∧ t.fault.halted = false ∧ armed1500.cfg = t.cfg ∧
      armed1500.fault.halted = false ∧ armed1500.ramp.rampEn = true ∧ armed1500.ramp.target = t.ramp.target ∧
      armed1500.ramp.stepHz = t.ramp.stepHz ∧ armed1500.ramp.periodTicks = t.ramp.periodTicks :=
  ⟨eq_next (by decide), by decide⟩

theorem witness_TickAtCompareIsTheMatch : TickReady (running at1000 1999) ∧
    (running at1000 1999).timer.counter = (running at1000 1999).timer.cmp := by decide

theorem witness_TickElsewhereCounts : TickReady (running at1000 65535) ∧
    (running at1000 65535).timer.counter ≠ (running at1000 65535).timer.cmp ∧ at1000.fault.halted = false ∧
    at1000.timer.running = false := by decide

/-- The clauses at `n = CMP` and `n = CMP + 1`. -/
theorem witness_MatchComesAfterComparePlusOneTicks :
    TickReady (running at1000 0) ∧ (running at1000 0).timer.counter = 0 ∧
    (running at1000 0).timer.cmp.toNat < 2 ^ (running at1000 0).cfg.compareWidth ∧
    1999 ≤ (running at1000 0).timer.cmp.toNat ∧ 2000 = (running at1000 0).timer.cmp.toNat + 1 := by decide

/-- Row T6 of 95_test_vectors.md 2.4: the match is TICK number 62536. -/
theorem witness_CounterPastCompareWrapsFirst : TickReady (running at1000 5000) ∧
    (running at1000 5000).timer.cmp.toNat < (running at1000 5000).timer.counter.toNat ∧
    (running at1000 5000).timer.counter.toNat < 2 ^ (running at1000 5000).cfg.compareWidth ∧
    62536 = 2 ^ (running at1000 5000).cfg.compareWidth - (running at1000 5000).timer.counter.toNat +
      (running at1000 5000).timer.cmp.toNat + 1 := by decide

/-- The accumulator just short of the period (row S1). -/
theorem witness_ServiceWithoutAdjustment : ServiceReady (pendingWith at1000 5 1999) ∧
    (pendingWith at1000 5 1999).ramp.rampEn = false ∧ ServiceReady (serviceRow 1000 1999 1500 1 2000 0 1999 5) ∧
    (serviceRow 1000 1999 1500 1 2000 0 1999 5).ramp.rampEn = true ∧
    accumulated (serviceRow 1000 1999 1500 1 2000 0 1999 5) <
      (serviceRow 1000 1999 1500 1 2000 0 1999 5).ramp.periodTicks.toNat := by decide

/-- The accumulator exactly at the period (row S2). -/
theorem witness_ServiceAdjustsTowardTheTarget : let s := serviceRow 1000 1999 1500 1 2000 1 1999 5
    ServiceReady s ∧ s.ramp.rampEn = true ∧ 1 ≤ s.ramp.periodTicks.toNat ∧ s.ramp.periodTicks.toNat ≤ accumulated s ∧
      FrequencyOk s.cfg (adjustedFrequency s) := by decide

theorem witness_ServiceTrapKeepsOnlyThePulse : let s := serviceRow 1000 1999 10 2000 2000 1 1999 5
    ServiceReady s ∧ s.ramp.rampEn = true ∧ 1 ≤ s.ramp.periodTicks.toNat ∧ s.ramp.periodTicks.toNat ≤ accumulated s ∧
      ¬ FrequencyOk s.cfg (adjustedFrequency s) := by decide

theorem witness_ServiceIsEnabledByPendingAndEnable :
    ((serviceRow 1000 1999 1500 1 2000 1 1999 5).ramp.rampEn = true →
    (serviceRow 1000 1999 1500 1 2000 1 1999 5).ramp.periodTicks.toNat ≠ 0) ∧
    ServiceReady (serviceRow 1000 1999 1500 1 2000 1 1999 5) := by decide

theorem witness_NoReachableServiceTraps :
    Reachable (advance 5 scripted) ∧ ServiceReady (advance 5 scripted) :=
  ⟨reachable_scripted, by decide⟩

/-- Both directions (rows S2, S5), and `CUR_FREQ` at its target already, each with a full period accumulated. -/
theorem witness_RampNeverOvershoots :
    let s := serviceRow 1000 1999 1500 1 2000 1 1999 5
    let u := serviceRow 2000 999 1000 10 2000 500 1999 5
    let w := serviceRow 1000 1999 1000 1 2000 1 1999 5
    Inv s ∧ stepService s = .next (nextState (stepService s)) ∧ s.ramp.rampEn = true ∧
      s.ramp.curFreq.toNat < s.ramp.target.toNat ∧ s.ramp.periodTicks.toNat ≤ accumulated s ∧
    Inv u ∧ stepService u = .next (nextState (stepService u)) ∧ u.ramp.rampEn = true ∧
      u.ramp.target.toNat < u.ramp.curFreq.toNat ∧ u.ramp.periodTicks.toNat ≤ accumulated u ∧
    Inv w ∧ stepService w = .next (nextState (stepService w)) ∧ w.ramp.rampEn = true ∧
      w.ramp.curFreq = w.ramp.target ∧ w.ramp.periodTicks.toNat ≤ accumulated w :=
  ⟨inv_of (by decide), eq_next (by decide), by decide, by decide, by decide,
    inv_of (by decide), eq_next (by decide), by decide, by decide, by decide,
    inv_of (by decide), eq_next (by decide), by decide, by decide, by decide⟩

theorem witness_RampReachesTheTargetInBoundedServices :
    let s := serviceRow 1000000 1 999999 1 1 0 1 0
    let run := [AgentStep.service, .tick, .tick, .service]
    Inv s ∧ s.ramp.rampEn = true ∧ (∀ a ∈ run, Internal a) ∧ runSteps run s = .next (nextState (runSteps run s)) ∧
      s.ramp.periodTicks.toNat * (absDiff s.ramp.curFreq.toNat s.ramp.target.toNat + 1) ≤ run.count .service :=
  ⟨inv_of (by decide), by decide, by decide, eq_next (by decide), by decide⟩

/-- A run with two ticks to each SERVICE, from an armed ramp already at its target: place `j` of the `k`-th round. -/
def roundState (j k : Nat) : State :=
  { State.reset with
    ramp :=
      { curFreq := 1000000, rampEn := k == 0, target := 1000000, stepHz := 1, periodTicks := 1, accTicks := 0
        ovfTicks := 0 }
    timer := { cmp := 1, counter := if j = 1 then 1 else 0, running := true, ie := true, pending := j == 2, matchCmp := 1 }
    trace := List.replicate k .pulse }

/-- The states of that run. -/
def roundRun (n : Nat) : State := roundState (n % 3) (n / 3)

/-- Its agents. -/
def roundAgents (n : Nat) : AgentStep := if n % 3 = 2 then .service else .tick

theorem round_step (k : Nat) : stepTick (roundState 0 k) = .next (roundState 1 k) ∧
    stepTick (roundState 1 k) = .next (roundState 2 k) ∧ stepService (roundState 2 k) = .next (roundState 0 (k + 1)) := by
  refine ⟨rfl, rfl, ?_⟩
  cases k with
  | zero => rfl
  | succ k =>
    show _ = Host.Outcome.next { roundState 0 (k + 2) with trace := List.replicate (k + 2) .pulse }
    rw [List.replicate_succ' (n := k + 1)]
    rfl

theorem round_isRun : IsRun roundRun roundAgents := by
  intro n
  have h := round_step (n / 3)
  have hn : n % 3 = 0 ∨ n % 3 = 1 ∨ n % 3 = 2 := by omega
  unfold roundRun roundAgents
  rcases hn with e | e | e
  · rw [e, show (n + 1) % 3 = 1 by omega, show (n + 1) / 3 = n / 3 by omega]
    exact h.1
  · rw [e, show (n + 1) % 3 = 2 by omega, show (n + 1) / 3 = n / 3 by omega]
    exact h.2.1
  · rw [e, show (n + 1) % 3 = 0 by omega, show (n + 1) / 3 = n / 3 + 1 by omega]
    exact h.2.2

theorem witness_FairRunsReachTheRampTarget :
    IsRun roundRun roundAgents ∧ Fair roundRun roundAgents ∧ Inv (roundRun 0) ∧
    (roundRun 0).fault.halted = false ∧ (roundRun 0).timer.running = true ∧ (roundRun 0).ramp.rampEn = true ∧
    ∀ n, Internal (roundAgents n) := by
  refine ⟨round_isRun, ⟨fun n _ => ⟨3 * n + 2, by omega, ?_⟩, fun n _ => ⟨3 * n, by omega, ?_⟩⟩, inv_of (by decide),
    by decide, by decide, by decide, fun n => ?_⟩
  · rw [roundAgents, if_pos (by omega)]
  · rw [roundAgents, if_neg (by omega)]
  · unfold roundAgents
    split
    · exact .inr rfl
    · exact .inl rfl

/-- Between the SERVICE and the POP_OVF the match, a GET_FREQ and a SERVICE with no overrun; after it a TICK and a POP_OVF. -/
theorem witness_OverrunIsReportedOnce :
    let s := serviceRow 1000 1999 1500 1 2000 1 1999 1998
    let t := nextState (stepService s)
    let between := [AgentStep.tick, .host (encode .getFreq), .service]
    let u := nextState (runSteps between t)
    let v := nextState (exec .popOvf u)
    let later := [AgentStep.tick, .host (encode .popOvf)]
    let w := nextState (runSteps later v)
    stepService s = .next t ∧ t.fault.halted = false ∧ s.ramp.ovfTicks = 0 ∧
      t.timer.cmp.toNat < s.timer.counter.toNat ∧ (∀ a ∈ between, a ≠ .reset ∧ ¬ Issues a .popOvf) ∧
      NoOverrunRun between t u ∧ u.fault.halted = false ∧ exec .popOvf u = .next v ∧ NoOverrunRun later v w ∧
      w.fault.halted = false := by
  refine ⟨eq_next (by decide), by decide, by decide, by decide, ?_,
    ⟨_, eq_next (by decide), by decide, _, eq_next (by decide), by decide, _, eq_next (by decide), by decide,
      show (_ : State) = _ by decide⟩,
    by decide, eq_next (by decide),
    ⟨_, eq_next (by decide), by decide, _, eq_next (by decide), by decide, show (_ : State) = _ by decide⟩,
    by decide⟩
  simp only [List.mem_cons, List.not_mem_nil, or_false]
  rintro a (rfl | rfl | rfl) <;> exact ⟨by decide, fun ⟨_, h, hd⟩ => by cases h <;> cases hd⟩

theorem witness_RunEventEndsWithOnePulse : let s := pendingWith at1000 5 1999
    Inv s ∧ s.fault.halted = false ∧ s.timer.running = true := ⟨inv_of (by decide), by decide, by decide⟩

/-- The largest sample, at the last slot of the ring; and the smallest sample and channel that fail. -/
theorem witness_FilterReadRunsThePipeline :
    let f : FilterState := { hist := [1, 2, 3, 4], histIdx := 3, sticky := 2 }
    let s : State := { State.reset with filters := State.reset.filters.set 1 f }
    s.fault.halted = false ∧ s.cfg.filters[(1 : Channel).toNat]? = some ⟨4, 8, 100, 900⟩ ∧
      s.filters[(1 : Channel).toNat]? = some f ∧ f.hist.length = 4 ∧ f.histIdx.toNat < 4 ∧
      (65535 : Word).toNat < 2 ^ s.cfg.sampleWidth ∧
      ¬ ((1 : Channel).toNat < s.cfg.filters.length ∧ (65536 : Word).toNat < 2 ^ s.cfg.sampleWidth) ∧
      ¬ ((2 : Channel).toNat < s.cfg.filters.length ∧ (0 : Word).toNat < 2 ^ s.cfg.sampleWidth) := by decide

theorem witness_FilterInitSeedsOneFilter : State.reset.fault.halted = false ∧
    State.reset.cfg.filters[(1 : Channel).toNat]? = some ⟨4, 8, 100, 900⟩ ∧
    (1 : Channel).toNat < State.reset.filters.length ∧ (65535 : Word).toNat < 2 ^ State.reset.cfg.sampleWidth ∧
    ¬ ((2 : Channel).toNat < State.reset.cfg.filters.length ∧ (0 : Word).toNat < 2 ^ State.reset.cfg.sampleWidth) := by
  decide

theorem witness_FilterReadHasNoErrorPath : State.reset.fault.halted = false ∧
    Memory.wf State.reset.cfg State.reset.filters = true ∧ (1 : Channel).toNat < State.reset.cfg.filters.length ∧
    (65535 : Word).toNat < 2 ^ State.reset.cfg.sampleWidth := by decide

theorem witness_HistoryMeanFits :
    (⟨4, 8, 100, 900⟩ : FilterParams) ∈ Config.reference.filters ∧
    ([65535, 65535, 65535, 65535] : List Sample).length = 4 ∧
    ∀ v ∈ ([65535, 65535, 65535, 65535] : List Sample), v.toNat < 2 ^ Config.reference.sampleWidth :=
  ⟨by decide, rfl, fun v _ => v.isLt⟩

theorem witness_RemapCoversTheOutputRange :
    (⟨4, 8, 100, 900⟩ : FilterParams) ∈ Config.reference.filters ∧ 100 ≤ 900 := by decide

theorem witness_ConstantSamplesGiveTheirMean : State.reset.fault.halted = false ∧
    Memory.wf State.reset.cfg State.reset.filters = true ∧
    State.reset.cfg.filters[(1 : Channel).toNat]? = some ⟨4, 8, 100, 900⟩ ∧
    (700 : Word).toNat < 2 ^ State.reset.cfg.sampleWidth ∧ 4 ≤ 4 := by decide

/-- Program P4, lines 1 to 7: 500 and 504 in filter 1. -/
theorem witness_SmallAlternationsNeverMoveSticky : State.reset.fault.halted = false ∧
    State.reset.cfg.filters[(1 : Channel).toNat]? = some ⟨4, 8, 100, 900⟩ ∧
    Memory.wf State.reset.cfg State.reset.filters = true ∧ (500 : Word).toNat < 2 ^ State.reset.cfg.sampleWidth ∧
    (504 : Word).toNat < 2 ^ State.reset.cfg.sampleWidth ∧
    |((500 : Word).toNat : Int) - ((504 : Word).toNat : Int)| < (8 : Nat) ∧
    (∀ v ∈ ([500, 504, 500, 504] : List Word), v = 500 ∨ v = 504) ∧
    exec (.filterInit 1 500) .reset = .next (nextState (exec (.filterInit 1 500) .reset)) :=
  ⟨by decide, by decide, by decide, by decide, by decide, by decide, by simp, eq_next (by decide)⟩

theorem witness_FilterCommandsSeeOnlyFilters : (Instr.filterRead 1 500).wf State.reset.cfg = true ∧
    State.reset.cfg = (running at1000 5).cfg ∧ State.reset.filters = (running at1000 5).filters ∧
    Memory.wf State.reset.cfg State.reset.filters = true ∧ State.reset.fault.halted = false ∧
    (running at1000 5).fault.halted = false := by decide

/-- A SERVICE; a command, a transaction that does not decode, and a filter command that is not well-formed, each as a HOST step. -/
theorem witness_TickServiceAndNonFilterHostStepsNeverTouchFilters :
    ∀ a ∈ ([.service, .host ⟨0x00000003, 1000, 0⟩, .host ⟨0x00001001, 0, 0⟩, .host ⟨0x00000210, 500, 0⟩] : List AgentStep),
      let s := pendingWith at1000 5 1999
      a ≠ .reset ∧ (∀ k v, Issues a (.filterRead k v) → (Instr.filterRead k v).wf s.cfg = false) ∧
        (∀ k v, Issues a (.filterInit k v) → (Instr.filterInit k v).wf s.cfg = false) ∧
        agentStep a s = .next (nextState (agentStep a s)) := by
  simp only [List.mem_cons, List.not_mem_nil, or_false]
  rintro a (rfl | rfl | rfl | rfl) <;>
    refine ⟨by decide, ?_, ?_, eq_next (by decide)⟩ <;> rintro k v ⟨_, h, hd⟩ <;> cases h <;> cases hd
  decide

/-- For the three statements about one step of any agent: FieldsChangeOnlyWhereListed, TraceGrowsByPulseAndTrap and
RampStateMachine, whose clauses a SET_RAMP, a SET_FREQ, a STOP, an arriving SERVICE and a trap meet. -/
theorem witness_agentSteps :
    (nextState (agentStep (.host (encode (.setRamp 1500 1000))) at1000)).ramp.rampEn = true ∧
    at1000.ramp.rampEn = false ∧ armed1500.ramp.rampEn = true ∧
    (nextState (agentStep (.host (encode (.setFreq 2000))) armed1500)).ramp.rampEn = false ∧
    (nextState (agentStep (.host (encode .stop)) armed1500)).ramp.rampEn = false ∧
    (nextState (agentStep .service (serviceRow 1000 1999 1003 1 600 1 1999 5))).ramp.rampEn = false ∧
    (nextState (agentStep (.host (encode (.setFreq 0))) armed1500)).fault.halted = true ∧
    (next? (agentStep (.host (encode (.setRamp 1500 1000))) at1000)).isSome = true := by decide

theorem witness_HaltedIsLeftOnlyByReset : halted.fault.halted = true := by decide

theorem witness_AfterResetOnlyHostAndResetAreEnabled :
    agentStep .reset halted = .next (nextState (agentStep .reset halted)) := eq_next (by decide)

/-- For EveryStepKeepsTheInvariant and OnlyDisabledAgentsStop: one step from a state with the invariant; the step after that is one
its agent does not have. -/
theorem witness_stepKeepsInvariant :
    let s : State := { pendingWith at1000 5 1999 with schedule := [.service, .service] }
    Inv s ∧ step s = .next (nextState (step s)) ∧ fault? (step (nextState (step s))) = some (.notEnabled .service) :=
  ⟨inv_of (by decide), eq_next (by decide), by decide⟩

/-- For CompareAlwaysMatchesTheFrequency and ArmedRampHasLegalParameters: a reachable state with a committed
frequency, a running timer and an armed ramp; and one with none. -/
theorem witness_reachable :
    Reachable (advance 5 scripted) ∧ (advance 5 scripted).ramp.rampEn = true ∧
    (advance 5 scripted).timer.running = true ∧ (advance 5 scripted).ramp.curFreq = 1000000 ∧ Reachable scripted ∧
    scripted.ramp.curFreq = 0 := ⟨reachable_scripted, by decide, by decide, by decide, .powerUp .reference _, by decide⟩

/-- For the step clauses of CompareAlwaysMatchesTheFrequency: a SERVICE that adjusts a committed frequency; and the SET_FREQ that
commits the first one. -/
theorem witness_CompareAlwaysMatchesTheFrequency :
    let s := serviceRow 1000 1999 1500 1 2000 1 1999 5
    let first := AgentStep.host (encode (.setFreq 1000))
    agentStep .service s = .next (nextState (agentStep .service s)) ∧ AgentStep.service ≠ .reset ∧ s.ramp.curFreq ≠ 0 ∧
    Reachable scripted ∧ agentStep first scripted = .next (nextState (agentStep first scripted)) ∧
      scripted.ramp.curFreq = 0 ∧ (nextState (agentStep first scripted)).ramp.curFreq ≠ 0 :=
  ⟨eq_next (by decide), by decide, by decide, .powerUp .reference _, eq_next (by decide), by decide, by decide⟩

/-- A START that completes, a STOP, a trapping START, and a step that is none of them; and a reachable state. -/
theorem witness_InterruptEnableEqualsRunning : Reachable scripted ∧
    agentStep (.host (encode .start)) at1000 = .next (nextState (agentStep (.host (encode .start)) at1000)) ∧
    (nextState (agentStep (.host (encode .start)) at1000)).fault.halted = false ∧
    Issues (.host (encode .start)) .start ∧ Issues (.host (encode .stop)) .stop ∧
    (nextState (agentStep (.host (encode .start)) .reset)).fault.halted = true ∧
    agentStep .tick (running at1000 5) = .next (nextState (agentStep .tick (running at1000 5))) ∧
    ¬ Issues .tick .start ∧ ¬ Issues .tick .stop ∧ AgentStep.tick ≠ .reset :=
  ⟨.powerUp .reference _, eq_next (by decide), by decide, ⟨_, rfl, by decide⟩, ⟨_, rfl, by decide⟩, by decide,
    eq_next (by decide), (fun ⟨_, h, _⟩ => nomatch h), (fun ⟨_, h, _⟩ => nomatch h), by decide⟩

end Sys2Proof.Tests
end

section
/-! The configuration check refuses exactly the parameters outside the legal values (00_scope.md R7 to R9). -/

namespace Sys2Proof

/-- Configuring is refused exactly when the legality check fails (00_scope.md R8). -/
theorem Config.ofParams?_eq_none_iff (p : Params) : Config.ofParams? p = none ↔ ¬ p.legal = true := by
  unfold Config.ofParams?
  split
  · next hlegal => simp [hlegal]
  · next hillegal => simp [hillegal]

/-- Settles O8: a refusal is a failed legality check, whose conditions are those of R7 and R9 in another order, with the
filters' parameters read one by one. -/
theorem illegalConfigurationIsRefused : Obligations.IllegalConfigurationIsRefused := by
  intro p
  rw [Config.ofParams?_eq_none_iff, Params.legal_iff]
  simp only [FilterParams.legal_iff]
  refine not_congr ⟨?_, ?_⟩
  · rintro ⟨⟨hclock, hpre, hWlo, hWhi, hfloor, hNFlo, hNFhi, hSWlo, hSWhi, hout, hmax, htick⟩, hfilters⟩
    exact ⟨hclock, hpre, hWlo, hWhi, hfloor, ⟨hNFlo, hNFhi⟩, ⟨hSWlo, hSWhi⟩, hfilters, hout, hmax, htick⟩
  · rintro ⟨hclock, hpre, hWlo, hWhi, hfloor, ⟨hNFlo, hNFhi⟩, ⟨hSWlo, hSWhi⟩, hfilters, hout, hmax, htick⟩
    exact ⟨⟨hclock, hpre, hWlo, hWhi, hfloor, hNFlo, hNFhi, hSWlo, hSWhi, hout, hmax, htick⟩, hfilters⟩

end Sys2Proof
end

section
/-! What a HOST step can do, said once over every transaction (30_encoding.md R60, R67, R72), and the trap of any step
(60_exceptions.md R140). -/

namespace Sys2Proof.Machine

@[simp] theorem issues_host_iff {x : Transaction} {i : Instr} : Issues (.host x) i ↔ decode x = .ok i := by
  simp [Issues]

/-- The HOST step of a transaction that decodes runs its command (30_encoding.md R72). -/
theorem agentStep_of_issues {a : AgentStep} {i : Instr} (h : Issues a i) (s : State) : agentStep a s = exec i s := by
  obtain ⟨x, rfl, hx⟩ := h
  show stepHost x s = exec i s
  rw [stepHost, hx]

/-- `HostEffect x s t`: a HOST step that presents `x` can lead from `s` to `t`. One constructor for the trap, one for the four
commands that only answer, and one for each command that writes a field of 10_state.md R24, R25 or R27. -/
inductive HostEffect (x : Transaction) (s : State) : State → Prop
  | trapped (code : TrapCode) : HostEffect x s (s.trapped code)
  | answered (w : Word) (ok : Bool) : HostEffect x s (s.responding w ok)
  | started (c : Nat) (hx : decode x = .ok .start) :
      HostEffect x s (({ s with timer := s.timer.armPeriodic (BitVec.ofNat 32 c) } : State).responding 0 true)
  | stopped (hx : decode x = .ok .stop) :
      HostEffect x s (({ s with
        timer := s.timer.disable
        ramp := { s.ramp with rampEn := false } } : State).responding 0 true)
  | committed (f : Word) (c : Nat) (hx : decode x = .ok (.setFreq f)) :
      HostEffect x s (({ s with
        ramp := { s.ramp with rampEn := false, curFreq := f }
        timer := { s.timer with cmp := BitVec.ofNat 32 c } } : State).responding 0 true)
  | rampArmed (f r stepHz periodTicks : Word) (hx : decode x = .ok (.setRamp f r)) :
      HostEffect x s (({ s with ramp := s.ramp.arm f stepHz periodTicks } : State).responding 0 true)
  | overrunPopped (hx : decode x = .ok .popOvf) :
      HostEffect x s (({ s with ramp := { s.ramp with ovfTicks := 0 } } : State).responding s.ramp.ovfTicks true)
  | filterRead (k : Channel) (v w : Word) (f : FilterState) (hx : decode x = .ok (.filterRead k v)) :
      HostEffect x s ((s.setFilter k.toNat f).responding w true)
  | filterSeeded (k : Channel) (v : Word) (f : FilterState) (hx : decode x = .ok (.filterInit k v)) :
      HostEffect x s ((s.setFilter k.toNat f).responding 0 true)

/-- What a command can do, in a block that is not halted. -/
theorem exec_next {x : Transaction} {i : Instr} {s t : State} (hx : decode x = .ok i) (h : exec i s = .next t) :
    s.fault.halted = false ∧ HostEffect x s t := by
  cases i with
  | start =>
    obtain ⟨h0, ⟨_, rfl⟩ | ⟨c, _, rfl⟩⟩ := execStart_next h
    · exact ⟨h0, .trapped _⟩
    · exact ⟨h0, .started c hx⟩
  | stop =>
    obtain ⟨h0, rfl⟩ := execStop_next h
    exact ⟨h0, .stopped hx⟩
  | setFreq f =>
    obtain ⟨h0, ⟨_, rfl⟩ | ⟨c, _, rfl⟩⟩ := execSetFreq_next h
    · exact ⟨h0, .trapped _⟩
    · exact ⟨h0, .committed f c hx⟩
  | setRamp f r =>
    obtain ⟨h0, ⟨_, rfl⟩ | ⟨_, _, ⟨_, rfl⟩ | ⟨n, p, _, rfl⟩⟩⟩ := execSetRamp_next h
    · exact ⟨h0, .trapped _⟩
    · exact ⟨h0, .trapped _⟩
    · exact ⟨h0, .rampArmed f r _ _ hx⟩
  | getFreq =>
    obtain ⟨h0, rfl⟩ := execGetFreq_next h
    exact ⟨h0, .answered _ _⟩
  | popOvf =>
    obtain ⟨h0, rfl⟩ := execPopOvf_next h
    exact ⟨h0, .overrunPopped hx⟩
  | getStatus =>
    obtain ⟨h0, rfl⟩ := execGetStatus_next h
    exact ⟨h0, .answered _ _⟩
  | filterRead k v =>
    obtain ⟨h0, ⟨_, rfl⟩ | ⟨_, _, _, _, _, _, _, rfl⟩⟩ := execFilterRead_next h
    · exact ⟨h0, .trapped _⟩
    · exact ⟨h0, .filterRead k v _ _ hx⟩
  | filterInit k v =>
    obtain ⟨h0, ⟨_, rfl⟩ | ⟨_, _, _, _, _, rfl⟩⟩ := execFilterInit_next h
    · exact ⟨h0, .trapped _⟩
    · exact ⟨h0, .filterSeeded k v _ hx⟩
  | convPeriod p =>
    obtain ⟨h0, _, _, rfl⟩ := execConvPeriod_next h
    exact ⟨h0, .answered _ _⟩
  | convFreq f =>
    obtain ⟨h0, _, _, rfl⟩ := execConvFreq_next h
    exact ⟨h0, .answered _ _⟩

/-- What a HOST step can do; a transaction that does not decode traps (30_encoding.md R67). -/
theorem stepHost_next {x : Transaction} {s t : State} (h : stepHost x s = .next t) :
    s.fault.halted = false ∧ HostEffect x s t := by
  unfold stepHost at h
  split at h
  · exact exec_next ‹_› h
  · obtain ⟨h0, h⟩ := whenRunning_next.1 h
    cases trap_next.1 h
    exact ⟨h0, .trapped _⟩

/-- A step that ends halted has trapped, either at once or in a SERVICE after its first stage (60_exceptions.md R140,
42_timer_sequencer.md R116). -/
theorem agentStep_trapped {a : AgentStep} {s t : State} (h : agentStep a s = .next t) (ht : t.fault.halted = true) :
    ∃ code, t = s.trapped code ∨ t = (pulse s).trapped code := by
  cases a with
  | host x =>
    obtain ⟨h0, he⟩ := stepHost_next h
    cases he with
    | trapped code => exact ⟨code, .inl rfl⟩
    | _ => simp [h0] at ht
  | tick =>
    obtain ⟨h0, _, rfl⟩ := stepTick_next.1 h
    simp [h0] at ht
  | service =>
    obtain ⟨⟨_, _, h0⟩, ⟨_, rfl⟩ | ⟨_, _, rfl⟩ | ⟨_, _, _, _, _, rfl⟩ | ⟨_, _, _, _, rfl⟩⟩ := stepService_next h
    · simp [correctOverrun_eq, h0] at ht
    · simp [correctOverrun_eq, h0] at ht
    · simp [correctOverrun_eq, h0] at ht
    · exact ⟨_, .inr rfl⟩
  | reset =>
    cases h
    cases ht

/-- Settles O49: for HOST by what its step can do, for SERVICE by its four ends; each next state is written out, so the fields it
does not write are read off it. -/
theorem fieldsChangeOnlyWhereListed : Obligations.FieldsChangeOnlyWhereListed := by
  intro a s t h hne
  cases a with
  | host x =>
    obtain ⟨h0, he⟩ := stepHost_next h
    cases he with
    | trapped code => simp [h0]
    | answered w ok => simp
    | started c hx => simp [hx]
    | stopped hx => simp [hx]
    | committed f c hx => simp [hx]
    | rampArmed f r n p hx => simp [hx]
    | overrunPopped hx => simp [hx]
    | filterRead k v w f hx => simp [hx]
    | filterSeeded k v f hx => simp [hx]
  | tick =>
    obtain ⟨_, _, rfl⟩ := stepTick_next.1 h
    simp
  | service =>
    obtain ⟨⟨_, _, h0⟩, ⟨_, rfl⟩ | ⟨_, _, rfl⟩ | ⟨_, _, _, _, _, rfl⟩ | ⟨_, _, _, _, rfl⟩⟩ := stepService_next h
    · simp [correctOverrun_eq]
    · simp [correctOverrun_eq]
    · simp [correctOverrun_eq]
    · simp [h0]
  | reset => exact absurd rfl hne

end Sys2Proof.Machine
end

section
/-! The invariant along a run: it holds at power-up, every step keeps it, so every reachable state has it
(10_state.md R30 to R34). -/

namespace Sys2Proof.Machine

theorem step_of_nil {s : State} (h : s.schedule = []) : step s = .next s := by
  rw [step, nextStep, h]

/-- A step takes the scheduled agent's step from the state in which that entry is used up (10_state.md R22). -/
theorem step_of_cons {s : State} {a : AgentStep} {rest : List AgentStep} (h : s.schedule = a :: rest) :
    step s = agentStep a (s.popped rest) := by
  rw [step, nextStep, h]

/-- Settles O7: the two equations of `step`, and RESET as power-up in the same configuration. -/
theorem stepTakesTheScheduledAgent : Obligations.StepTakesTheScheduledAgent := by
  intro s rest
  refine ⟨step_of_nil, step_of_cons, step_of_cons, fun h => ?_⟩
  rw [step_of_cons h]
  exact congrArg _ (s.popped rest).resetBlock_eq_powerUp

/-- Settles O55: power-up has the fields of a RESET. -/
theorem invariantHoldsAtPowerUp : Obligations.InvariantHoldsAtPowerUp := fun c _ =>
  (inv_resetBlock (State.powerUp c)).of_block rfl rfl rfl rfl rfl

theorem exec_inv {i : Instr} {s t : State} (hi : Inv s) (h : exec i s = .next t) : Inv t := by
  cases i with
  | start => exact execStart_inv hi h
  | stop => exact execStop_inv hi h
  | setFreq f => exact execSetFreq_inv hi h
  | setRamp f r => exact execSetRamp_inv hi h
  | getFreq => exact execGetFreq_inv hi h
  | popOvf => exact execPopOvf_inv hi h
  | getStatus => exact execGetStatus_inv hi h
  | filterRead k v => exact execFilterRead_inv hi h
  | filterInit k v => exact execFilterInit_inv hi h
  | convPeriod p => exact execConvPeriod_inv hi h
  | convFreq f => exact execConvFreq_inv hi h

theorem stepHost_inv {x : Transaction} {s t : State} (hi : Inv s) (h : stepHost x s = .next t) : Inv t := by
  unfold stepHost at h
  split at h
  · exact exec_inv hi h
  · cases trap_next.1 (whenRunning_next.1 h).2
    exact hi.trapped _

theorem agentStep_inv {a : AgentStep} {s t : State} (hi : Inv s) (h : agentStep a s = .next t) : Inv t := by
  cases a with
  | host x => exact stepHost_inv hi h
  | tick => exact stepTick_inv hi h
  | service => exact stepService_inv hi h
  | reset => cases h; exact inv_resetBlock s

/-- Settles O56: with nothing scheduled the state stays, otherwise the scheduled agent's step keeps the invariant. -/
theorem everyStepKeepsTheInvariant : Obligations.EveryStepKeepsTheInvariant := by
  intro s t hi h
  cases hs : s.schedule with
  | nil =>
    rw [step_of_nil hs] at h
    cases h
    exact hi
  | cons a rest =>
    rw [step_of_cons hs] at h
    exact agentStep_inv (hi.popped rest) h

theorem Reachable.inv {s : State} (h : Reachable s) : Inv s := by
  induction h with
  | powerUp c schedule => exact invariantHoldsAtPowerUp c schedule
  | step _ hst ih => exact everyStepKeepsTheInvariant _ _ ih hst

/-- Settles O60: the invariant's clause on an armed ramp; `ACC_TICKS` and `MATCH_CMP` each have W bits, and W is at most 31. -/
theorem armedRampHasLegalParameters : Obligations.ArmedRampHasLegalParameters := by
  intro s hs he
  have hi := hs.inv
  obtain ⟨htarget, hstep, hmin, hmax, hacc⟩ := hi.ramping he
  have hmatch := hi.matchWidth
  have hpow := s.cfg.two_pow_width
  refine ⟨htarget, hstep, hmin, s.cfg.cmpMax_eq ▸ hmax, hacc, ?_, ?_⟩
  · rw [Nat.pow_succ]
    omega
  · rw [Nat.pow_succ]
    omega

end Sys2Proof.Machine
end

section
/-! What the steps do to `IE` and `RUNNING`, to the ramp state machine, and to the committed frequency (10_state.md R29 to R32). -/

namespace Sys2Proof.Machine

/-- Settles O59: the invariant gives `IE = RUNNING`; each command's own writes give what it sets or clears, a trap writes neither,
and any other step that changed one would have to be START or STOP. -/
theorem interruptEnableEqualsRunning : Obligations.InterruptEnableEqualsRunning := by
  refine ⟨fun s hs => hs.inv.ieRunning, fun a s t h => ⟨fun ht hstart => ?_, ?_, ?_⟩⟩
  · rw [agentStep_of_issues hstart] at h
    obtain ⟨_, ⟨_, rfl⟩ | ⟨_, _, rfl⟩⟩ := execStart_next h
    · cases ht
    · exact ⟨rfl, rfl⟩
  · rintro (hstop | rfl)
    · rw [agentStep_of_issues hstop] at h
      obtain ⟨_, rfl⟩ := execStop_next h
      exact ⟨rfl, rfl⟩
    · cases h
      exact ⟨rfl, rfl⟩
  · rintro (ht | ⟨hstart, hstop, hreset⟩)
    · obtain ⟨_, rfl | rfl⟩ := agentStep_trapped h ht
      · exact ⟨rfl, rfl⟩
      · exact ⟨rfl, rfl⟩
    · obtain ⟨-, -, -, -, -, -, -, hlisted, -⟩ := fieldsChangeOnlyWhereListed a s t h hreset
      have hkept : ¬ (t.timer.running ≠ s.timer.running ∨ t.timer.ie ≠ s.timer.ie) :=
        fun hc => (hlisted hc).elim hstart hstop
      rw [not_or, not_not, not_not] at hkept
      exact hkept.symm

/-- What a step can do to `RAMP_EN`: keep it, arm the ramp by SET_RAMP, or disarm it by one of the four steps of
10_state.md R29. -/
theorem agentStep_rampEn {a : AgentStep} {s t : State} (h : agentStep a s = .next t) :
    t.ramp.rampEn = s.ramp.rampEn ∨ (t.ramp.rampEn = true ∧ ∃ f r, Issues a (.setRamp f r)) ∨
      (t.ramp.rampEn = false ∧ ((∃ f, Issues a (.setFreq f)) ∨ Issues a .stop ∨ a = .reset ∨
        (a = .service ∧ t.ramp.curFreq = s.ramp.target))) := by
  cases a with
  | host x =>
    obtain ⟨_, he⟩ := stepHost_next h
    cases he with
    | stopped hx => exact .inr (.inr ⟨rfl, .inr (.inl ⟨x, rfl, hx⟩)⟩)
    | committed f c hx => exact .inr (.inr ⟨rfl, .inl ⟨f, x, rfl, hx⟩⟩)
    | rampArmed f r n p hx => exact .inr (.inl ⟨rfl, f, r, x, rfl, hx⟩)
    | _ => exact .inl rfl
  | tick =>
    obtain ⟨_, _, rfl⟩ := stepTick_next.1 h
    exact .inl rfl
  | service =>
    obtain ⟨_, ⟨_, rfl⟩ | ⟨_, _, rfl⟩ | ⟨he, _, _, _, _, rfl⟩ | ⟨_, _, _, _, rfl⟩⟩ := stepService_next h
    · simp [correctOverrun_eq]
    · simp [correctOverrun_eq]
    · by_cases hdone : adjustedFrequency s = s.ramp.target.toNat
      · simp [correctOverrun_eq, hdone]
      · simp [correctOverrun_eq, hdone, he]
    · exact .inl rfl
  | reset =>
    cases h
    exact .inr (.inr ⟨rfl, .inr (.inr (.inl rfl))⟩)

/-- Settles O51: the three things a step can do to `RAMP_EN` give the ways out of each state; each command's own writes give
where it leads; a trap writes no ramp field. -/
theorem rampStateMachine : Obligations.RampStateMachine := by
  intro a s t h
  refine ⟨fun hs ht => ?_, fun hs ht => ?_, fun ht => ?_, fun ht => ⟨fun f r ha => ?_, fun f ha => ?_, fun ha => ?_⟩⟩
  · rcases agentStep_rampEn h with hkept | ⟨-, hset⟩ | ⟨hoff, -⟩
    · simp [hkept, hs] at ht
    · exact hset
    · simp [hoff] at ht
  · rcases agentStep_rampEn h with hkept | ⟨hon, -⟩ | ⟨-, hleft⟩
    · simp [hkept, hs] at ht
    · simp [hon] at ht
    · exact hleft
  · obtain ⟨_, rfl | rfl⟩ := agentStep_trapped h ht
    · rfl
    · rfl
  · rw [agentStep_of_issues ha] at h
    obtain ⟨_, ⟨_, rfl⟩ | ⟨_, _, ⟨_, rfl⟩ | ⟨n, p, _, rfl⟩⟩⟩ := execSetRamp_next h
    · cases ht
    · cases ht
    · exact ⟨rfl, fun hs htarget hstep hperiod => if_pos ⟨hs, htarget.symm, hstep.symm, hperiod.symm⟩⟩
  · rw [agentStep_of_issues ha] at h
    obtain ⟨_, ⟨_, rfl⟩ | ⟨_, _, rfl⟩⟩ := execSetFreq_next h
    · cases ht
    · rfl
  · rw [agentStep_of_issues ha] at h
    obtain ⟨_, rfl⟩ := execStop_next h
    rfl

/-- `ticksForFrequency` in the terms of the invariant (40_converter.md R82). -/
theorem ticksForFrequency_of_ne_zero {c : Config} {f : Nat} (hf : f ≠ 0) :
    ticksForFrequency c f = some ((periodTicksOf c f : Int) - 1) := if_neg hf

/-- No step but RESET writes `CUR_FREQ`, unless it writes a frequency in range (10_state.md R30). -/
theorem agentStep_curFreq {a : AgentStep} {s t : State} (h : agentStep a s = .next t) (hne : a ≠ .reset) :
    t.ramp.curFreq = s.ramp.curFreq ∨ FrequencyOk s.cfg t.ramp.curFreq.toNat := by
  by_cases hkept : t.ramp.curFreq = s.ramp.curFreq
  · exact .inl hkept
  obtain ⟨hlisted, -⟩ := fieldsChangeOnlyWhereListed a s t h hne
  rcases hlisted hkept with ⟨f, ha⟩ | rfl
  · rw [agentStep_of_issues ha] at h
    obtain ⟨_, ⟨_, rfl⟩ | ⟨_, hc, rfl⟩⟩ := execSetFreq_next h
    · exact .inl rfl
    · exact .inr (compareValue?_some hc).1
  · obtain ⟨_, ⟨_, rfl⟩ | ⟨_, _, rfl⟩ | ⟨_, _, _, _, hc, rfl⟩ | ⟨_, _, _, _, rfl⟩⟩ := stepService_next h
    · simp [correctOverrun_eq]
    · simp [correctOverrun_eq]
    · rw [correctOverrun_eq]
      show _ ∨ FrequencyOk s.cfg (BitVec.ofNat 32 (adjustedFrequency s)).toNat
      rw [toNat_ofNat_of_lt (adjustedFrequency_lt s)]
      exact .inr (compareValue?_some hc).1
    · exact .inl rfl

/-- Settles O58: the invariant relates `CMP` and `CUR_FREQ`; what a step writes to `CUR_FREQ` is in range, so not 0; and a SERVICE
needs a running timer, which has a committed frequency already. -/
theorem compareAlwaysMatchesTheFrequency : Obligations.CompareAlwaysMatchesTheFrequency := by
  refine ⟨fun s hs => ?_, fun a s t h hne hs => ?_, fun a s t hs h h0 ht => ?_⟩
  · rcases hs.inv.frequency with ⟨hfreq, hcmp⟩ | ⟨hok, hcmp⟩
    · exact .inl ⟨BitVec.eq_of_toNat_eq hfreq, BitVec.eq_of_toNat_eq hcmp⟩
    · obtain ⟨hf, hmin, hmax⟩ := frequencyOk_iff.1 hok
      refine .inr ⟨?_, by omega, by omega⟩
      rw [ticksForFrequency_of_ne_zero hf, ← hcmp]
      simp
  · rcases agentStep_curFreq h hne with hkept | hok
    · rwa [hkept]
    · exact fun h0 => hok.1 (by simp [h0])
  · have hne : a ≠ .reset := by
      rintro rfl
      cases h
      exact ht rfl
    obtain ⟨hlisted, -⟩ := fieldsChangeOnlyWhereListed a s t h hne
    rcases hlisted (fun hkept => ht (hkept.trans h0)) with hset | rfl
    · exact hset
    · have hpending := (stepService_ready_of_next h).1
      have hrunning := (hs.inv.pendingMatch hpending).1
      exact absurd (by simp [h0]) (hs.inv.runningCommitted hrunning)

end Sys2Proof.Machine
end

section
/-! From a state with the invariant a step goes on, or the scheduled agent has none there (10_state.md R22): the stops on a zero
period and on a missing history entry do not come up. -/

namespace Sys2Proof.Machine

/-- Every command goes on from a block that is not halted and whose history memory has its form (20_memory.md R45). -/
theorem exec_progress {s : State} (h0 : s.fault.halted = false) (hm : Memory.wf s.cfg s.filters = true) (i : Instr) :
    ∃ t, exec i s = .next t := by
  cases i with
  | start =>
    show ∃ t, execStart s = .next t
    rw [execStart, whenRunning_of_running h0]
    split <;> exact ⟨_, rfl⟩
  | stop => exact ⟨_, whenRunning_of_running h0⟩
  | setFreq f =>
    show ∃ t, execSetFreq f s = .next t
    rw [execSetFreq, whenRunning_of_running h0]
    split <;> exact ⟨_, rfl⟩
  | setRamp f r =>
    show ∃ t, execSetRamp f r s = .next t
    rw [execSetRamp, whenRunning_of_running h0]
    split
    · exact ⟨_, rfl⟩
    · split <;> exact ⟨_, rfl⟩
  | getFreq => exact ⟨_, whenRunning_of_running h0⟩
  | popOvf => exact ⟨_, whenRunning_of_running h0⟩
  | getStatus => exact ⟨_, whenRunning_of_running h0⟩
  | filterRead k v =>
    show ∃ t, execFilterRead k v s = .next t
    cases hop : filterOperand s.cfg k v with
    | none =>
      rw [execFilterRead, whenRunning_of_running h0, hop]
      exact ⟨_, rfl⟩
    | some pv =>
      obtain ⟨hp, hv, -⟩ := filterOperand_some.1 hop
      obtain ⟨f, hf, hfw⟩ := Memory.wf_get hm hp
      obtain ⟨g, hg, -⟩ := insertSample_wf (List.mem_of_getElem? hp) hfw (v := v.setWidth 16) (by rwa [sample_toNat hv])
      exact ⟨_, execFilterRead_of_wf h0 hp hv hf hg⟩
  | filterInit k v =>
    show ∃ t, execFilterInit k v s = .next t
    rw [execFilterInit, whenRunning_of_running h0]
    cases hop : filterOperand s.cfg k v with
    | none => exact ⟨_, rfl⟩
    | some pv =>
      obtain ⟨hp, -, -⟩ := filterOperand_some.1 hop
      obtain ⟨f, hf, -⟩ := Memory.wf_get hm hp
      simp only [hf]
      exact ⟨_, rfl⟩
  | convPeriod p =>
    show ∃ t, execConvPeriod p s = .next t
    rw [execConvPeriod, whenRunning_of_running h0]
    simp only []
    split <;> exact ⟨_, rfl⟩
  | convFreq f =>
    show ∃ t, execConvFreq f s = .next t
    rw [execConvFreq, whenRunning_of_running h0]
    split <;> exact ⟨_, rfl⟩

/-- HOST goes on from any state with the invariant that is not halted. -/
theorem stepHost_progress {s : State} (hi : Inv s) (h0 : s.fault.halted = false) (x : Transaction) :
    ∃ t, stepHost x s = .next t := by
  unfold stepHost
  split
  · exact exec_progress h0 hi.memory _
  · exact ⟨_, whenRunning_of_running h0⟩

/-- With a period of at least one tick the service's second stage has a quotient (00_scope.md R13). -/
theorem advanceRamp_ne_noPeriod {s : State} (hperiod : s.ramp.rampEn = true → 1 ≤ s.ramp.periodTicks.toNat) :
    advanceRamp s ≠ .noPeriod := by
  cases he : s.ramp.rampEn with
  | false => simp [advanceRamp_disabled he]
  | true =>
    by_cases hp : accumulated s < s.ramp.periodTicks.toNat
    · simp [advanceRamp_hold he hp]
    · rw [advanceRamp_adjust he (hperiod he) (Nat.le_of_not_lt hp)]
      cases compareValue? s.cfg (adjustedFrequency s) <;> simp

/-- SERVICE goes on wherever it is enabled: an armed ramp has a period of at least one tick (10_state.md R33). -/
theorem stepService_progress {s : State} (hi : Inv s) (h : ServiceReady s) : ∃ t, stepService s = .next t := by
  rw [stepService_of_ready h]
  split
  · exact ⟨_, rfl⟩
  · exact ⟨_, rfl⟩
  · rename_i hno
    exact absurd hno (advanceRamp_ne_noPeriod fun he => (hi.pulse.ramping he).2.2.1)

theorem exec_of_halted {s : State} (h : s.fault.halted = true) (i : Instr) : exec i s = .fault .halted := by
  cases i <;> exact whenRunning_of_halted h

/-- A halted block has no step but RESET's (10_state.md R22, 60_exceptions.md R140). -/
theorem agentStep_of_halted {s : State} (h : s.fault.halted = true) {a : AgentStep} (hne : a ≠ .reset) :
    agentStep a s = .fault .halted := by
  cases a with
  | host x =>
    show stepHost x s = .fault .halted
    unfold stepHost
    split
    · exact exec_of_halted h _
    · exact whenRunning_of_halted h
  | tick => exact whenRunning_of_halted h
  | service => exact whenRunning_of_halted h
  | reset => exact absurd rfl hne

/-- An agent has no step exactly where 10_state.md R22 gives it none. -/
theorem agentStep_progress {s : State} (hi : Inv s) (a : AgentStep) : (∃ t, agentStep a s = .next t) ∨
    (s.fault.halted = true ∧ agentStep a s = .fault .halted) ∨
    (s.timer.running = false ∧ agentStep a s = .fault (.notEnabled .tick)) ∨
    ((s.timer.pending = false ∨ s.timer.ie = false) ∧ agentStep a s = .fault (.notEnabled .service)) := by
  by_cases hreset : a = .reset
  · rw [hreset]
    exact .inl ⟨_, rfl⟩
  cases h0 : s.fault.halted with
  | true => exact .inr (.inl ⟨rfl, agentStep_of_halted h0 hreset⟩)
  | false =>
    cases a with
    | host x => exact .inl (stepHost_progress hi h0 x)
    | tick =>
      cases hrun : s.timer.running with
      | true => exact .inl ⟨_, stepTick_next.2 ⟨h0, hrun, rfl⟩⟩
      | false =>
        refine .inr (.inr (.inl ⟨rfl, ?_⟩))
        show stepTick s = _
        simp [stepTick, whenRunning_of_running h0, hrun]
    | service =>
      by_cases hready : s.timer.pending = true ∧ s.timer.ie = true
      · exact .inl (stepService_progress hi ⟨hready.1, hready.2, h0⟩)
      · refine .inr (.inr (.inr ⟨by rwa [not_and_or, Bool.not_eq_true, Bool.not_eq_true] at hready, ?_⟩))
        show stepService s = _
        rw [stepService, whenRunning_of_running h0]
        exact if_neg (mt serviceEnabled_iff.1 hready)
    | reset => exact absurd rfl hreset

/-- Settles O57: nothing scheduled is a step; otherwise the scheduled agent goes on, or has no step where R22 gives it none. -/
theorem onlyDisabledAgentsStop : Obligations.OnlyDisabledAgentsStop := by
  intro s hi
  cases hs : s.schedule with
  | nil => exact .inl ⟨s, step_of_nil hs⟩
  | cons a rest =>
    rw [step_of_cons hs]
    exact agentStep_progress (hi.popped rest) a

end Sys2Proof.Machine
end

section
/-! The commands of 20_memory.md R49 leave the same state when issued again: a query leaves all but its answer, and each write is its
own second write. -/

namespace Sys2Proof.Machine

/-- A query writes nothing but its answer and does not read the answer on the port (30_encoding.md R61), so it answers the same
again (41_ramp_controller.md R96, R98; 40_converter.md R84, R85). -/
theorem exec_query_again {i : Instr} {s t : State}
    (hi : i = .getFreq ∨ i = .getStatus ∨ (∃ p, i = .convPeriod p) ∨ ∃ f, i = .convFreq f)
    (h : exec i s = .next t) : exec i t = .next t := by
  have hunread (w : Word) (ok : Bool) : exec i (s.responding w ok) = exec i s := by
    obtain rfl | rfl | ⟨p, rfl⟩ | ⟨f, rfl⟩ := hi <;> rfl
  have hanswer : ∃ w ok, t = s.responding w ok := by
    obtain rfl | rfl | ⟨p, rfl⟩ | ⟨f, rfl⟩ := hi
    · exact ⟨_, _, (execGetFreq_next h).2⟩
    · exact ⟨_, _, (execGetStatus_next h).2⟩
    · exact (execConvPeriod_next h).2
    · exact (execConvFreq_next h).2
  obtain ⟨w, ok, rfl⟩ := hanswer
  exact (hunread w ok).trans h

/-- SET_FREQ of a frequency with a valid compare value commits it (41_ramp_controller.md R94). -/
theorem execSetFreq_of_compareValue {f : Word} {c : Nat} {s : State} (h0 : s.fault.halted = false)
    (hc : compareValue? s.cfg f.toNat = some c) : execSetFreq f s = .next (({ s with
      ramp := { s.ramp with rampEn := false, curFreq := f }
      timer := { s.timer with cmp := BitVec.ofNat 32 c } } : State).responding 0 true) := by
  rw [execSetFreq, whenRunning_of_running h0, hc]
  rfl

/-- Arming an armed ramp with its own parameters keeps `ACC_TICKS`, so it changes nothing (42_timer_sequencer.md R122). -/
theorem RampState.arm_arm (r : RampState) (target stepHz periodTicks : Word) :
    (r.arm target stepHz periodTicks).arm target stepHz periodTicks = r.arm target stepHz periodTicks := by
  simp [RampState.arm]

/-- A SET_RAMP that arms the ramp as it is already armed only answers (41_ramp_controller.md R95). -/
theorem execSetRamp_of_armed {f r : Word} {c n p : Nat} {s : State} (h0 : s.fault.halted = false)
    (hc : compareValue? s.cfg f.toNat = some c) (hr : rampParams s.cfg r.toNat = some (n, p))
    (harmed : s.ramp.arm f (BitVec.ofNat 32 n) (BitVec.ofNat 32 p) = s.ramp) :
    execSetRamp f r s = .next (s.responding 0 true) := by
  rw [execSetRamp, whenRunning_of_running h0, hc, hr]
  simp only [harmed]
  rfl

/-- Settles O24: the writes of STOP and SET_FREQ are there already, SET_RAMP finds the ramp armed with its own parameters, and a
query answers the same again. -/
theorem repeatedCommandsChangeNothing : Obligations.RepeatedCommandsChangeNothing := by
  rintro i s t (rfl | ⟨f, rfl⟩ | ⟨f, r, rfl⟩ | hquery) h ht
  · obtain ⟨h0, rfl⟩ := execStop_next h
    exact whenRunning_of_running h0
  · obtain ⟨h0, ⟨_, rfl⟩ | ⟨c, hc, rfl⟩⟩ := execSetFreq_next h
    · cases ht
    · exact execSetFreq_of_compareValue h0 hc
  · obtain ⟨h0, ⟨_, rfl⟩ | ⟨c, hc, ⟨_, rfl⟩ | ⟨n, p, hr, rfl⟩⟩⟩ := execSetRamp_next h
    · cases ht
    · cases ht
    · exact execSetRamp_of_armed h0 hc hr (RampState.arm_arm ..)
  · exact exec_query_again hquery h

end Sys2Proof.Machine
end

section
/-! The filters and the rest of the block do not meet (20_memory.md R57): a well-formed filter command sees the configuration and the
filters alone, and every other step but RESET sees everything but the filters. -/

namespace Sys2Proof.Machine

/-- The operand checks, read as the two conditions of 30_encoding.md R67 (c), (d). -/
theorem filterOperandOk_iff {c : Config} {k : Channel} {v : Word} :
    c.filterOperandOk k v = true ↔ k.toNat < c.filters.length ∧ v.toNat < 2 ^ c.sampleWidth :=
  decide_eq_true_iff

theorem filterOperand_of_not_ok {c : Config} {k : Channel} {v : Word} (h : c.filterOperandOk k v = false) :
    filterOperand c k v = none :=
  filterOperand_none.2 (decide_eq_false_iff_not.1 h)

/-- Operands that pass their checks name a filter of the configuration. -/
theorem exists_params_of_ok {c : Config} {k : Channel} {v : Word} (h : c.filterOperandOk k v = true) :
    ∃ p, c.filters[k.toNat]? = some p ∧ v.toNat < 2 ^ c.sampleWidth := by
  obtain ⟨hk, hv⟩ := filterOperandOk_iff.1 h
  exact ⟨_, List.getElem?_eq_getElem hk, hv⟩

/-- FILTER_INIT of a filter that has its ring seeds it (43_sensor_filter.md R131). -/
theorem execFilterInit_of_wf {k : Channel} {v : Word} {s : State} {p : FilterParams} {f : FilterState}
    (h0 : s.fault.halted = false) (hp : s.cfg.filters[k.toNat]? = some p) (hv : v.toNat < 2 ^ s.cfg.sampleWidth)
    (hf : s.filters[k.toNat]? = some f) :
    execFilterInit k v s = .next ((s.setFilter k.toNat
      { hist := fillHistory p (v.setWidth 16), histIdx := 0, sticky := v.setWidth 16 }).responding 0 true) := by
  rw [execFilterInit, whenRunning_of_running h0, filterOperand_some.2 ⟨hp, hv, rfl⟩]
  simp only [hf]
  rfl

/-- The ring a well-formed filter command leaves in its filter, and the word it answers, are the same in all states of one
configuration that hold the same filters. -/
theorem exec_filterCommand {i : Instr} {s u : State} (hi : i.usesChannel = true) (hwf : i.wf s.cfg = true)
    (hcfg : s.cfg = u.cfg) (hfilters : s.filters = u.filters) (hm : Memory.wf s.cfg s.filters = true)
    (hs : s.fault.halted = false) (hu : u.fault.halted = false) :
    ∃ f w, exec i s = .next ((s.setFilter i.channel.toNat f).responding w true) ∧
      exec i u = .next ((u.setFilter i.channel.toNat f).responding w true) := by
  cases i with
  | filterRead k v =>
    obtain ⟨p, hp, hv⟩ := exists_params_of_ok hwf
    obtain ⟨f, hf, hfw⟩ := Memory.wf_get hm hp
    obtain ⟨g, hg, -⟩ := insertSample_wf (List.mem_of_getElem? hp) hfw (v := v.setWidth 16) (by rwa [sample_toNat hv])
    refine ⟨_, _, execFilterRead_of_wf hs hp hv hf hg, ?_⟩
    rw [hcfg] at hp hv ⊢
    exact execFilterRead_of_wf hu hp hv (hfilters ▸ hf) hg
  | filterInit k v =>
    obtain ⟨p, hp, hv⟩ := exists_params_of_ok hwf
    obtain ⟨f, hf, -⟩ := Memory.wf_get hm hp
    refine ⟨_, _, execFilterInit_of_wf hs hp hv hf, ?_⟩
    rw [hcfg] at hp hv
    exact execFilterInit_of_wf hu hp hv (hfilters ▸ hf)
  | _ => cases hi

/-- Settles O47: from both states the command leaves the same ring and answers the same word; setting one filter and answering keep
the rest. -/
theorem filterCommandsSeeOnlyFilters : Obligations.FilterCommandsSeeOnlyFilters := by
  intro i s u hi hwf hcfg hfilters hm hs hu
  have hchannel : i.usesChannel = true := by
    obtain ⟨k, v, rfl⟩ | ⟨k, v, rfl⟩ := hi <;> rfl
  obtain ⟨f, w, hexecS, hexecU⟩ := exec_filterCommand hchannel hwf hcfg hfilters hm hs hu
  refine ⟨_, _, hexecS, hexecU, ?_, rfl, rfl, rfl, rfl, rfl, fun k v j hk hj => ?_⟩
  · exact congrArg (List.set · i.channel.toNat f) hfilters
  · have hik : i.channel = k := by
      obtain rfl | rfl := hk <;> rfl
    exact List.getElem?_set_ne (hik ▸ hj.symm)

/-- `s` with other filters in place of its own. -/
abbrev State.withFilters (fs : List FilterState) (s : State) : State := { s with filters := fs }

/-- The same answer of a step, with other filters in its next state. -/
def nextWithFilters (fs : List FilterState) : Result → Result
  | .next t => .next (t.withFilters fs)
  | .fault r => .fault r
  | .refused r => .refused r

/-- The gate does not read the filters (60_exceptions.md R140). -/
theorem whenRunning_withFilters {fs : List FilterState} {s : State} {r r' : Result} (h : r' = nextWithFilters fs r) :
    whenRunning (s.withFilters fs) r' = nextWithFilters fs (whenRunning s r) := by
  subst h
  unfold whenRunning
  split <;> rfl

/-- A command that is no well-formed filter command takes the same step with any filters in place (20_memory.md R57). -/
theorem exec_withFilters {i : Instr} {s : State} (hi : i.usesChannel = true → i.wf s.cfg = false)
    (fs : List FilterState) : exec i (s.withFilters fs) = nextWithFilters fs (exec i s) := by
  cases i with
  | start =>
    refine whenRunning_withFilters ?_
    cases compareValue? s.cfg s.ramp.curFreq.toNat <;> rfl
  | stop => exact whenRunning_withFilters rfl
  | setFreq f =>
    refine whenRunning_withFilters ?_
    cases compareValue? s.cfg f.toNat <;> rfl
  | setRamp f r =>
    refine whenRunning_withFilters ?_
    cases compareValue? s.cfg f.toNat with
    | none => rfl
    | some _ => cases rampParams s.cfg r.toNat <;> rfl
  | getFreq => exact whenRunning_withFilters rfl
  | popOvf => exact whenRunning_withFilters rfl
  | getStatus => exact whenRunning_withFilters rfl
  | filterRead k v =>
    refine whenRunning_withFilters ?_
    simp only [filterOperand_of_not_ok (hi rfl)]
    rfl
  | filterInit k v =>
    refine whenRunning_withFilters ?_
    simp only [filterOperand_of_not_ok (hi rfl)]
    rfl
  | convPeriod p =>
    refine whenRunning_withFilters ?_
    cases valid s.cfg (ticksForPeriod s.cfg p.toNat) <;> rfl
  | convFreq f =>
    refine whenRunning_withFilters ?_
    cases compareValue? s.cfg f.toNat <;> rfl

/-- SERVICE takes the same step with any filters in place. -/
theorem stepService_withFilters {s t : State} (h : stepService s = .next t) (fs : List FilterState) :
    stepService (s.withFilters fs) = .next (t.withFilters fs) := by
  obtain ⟨hready, hcases⟩ := stepService_next h
  rw [stepService_of_ready (s := s.withFilters fs) hready]
  obtain ⟨he, rfl⟩ | ⟨he, hp, rfl⟩ | ⟨he, h1, hp, c, hc, rfl⟩ | ⟨he, h1, hp, hc, rfl⟩ := hcases
  · rw [advanceRamp_disabled (s := pulse (s.withFilters fs)) he]
    simp only [correctOverrun_eq]
    rfl
  · rw [advanceRamp_hold (s := pulse (s.withFilters fs)) he hp]
    simp only [correctOverrun_eq]
    rfl
  · rw [advanceRamp_adjust (s := pulse (s.withFilters fs)) he h1 hp, pulse_cfg, adjustedFrequency_pulse, hc]
    simp only [correctOverrun_eq]
    rfl
  · rw [advanceRamp_adjust (s := pulse (s.withFilters fs)) he h1 hp, pulse_cfg, adjustedFrequency_pulse, hc]
    rfl

/-- A transaction that does not decode traps (30_encoding.md R67). -/
theorem agentStep_of_undecoded {x : Transaction} {e : Illegal} (hx : decode x = .error e) (s : State) :
    agentStep (.host x) s = whenRunning s (trap .illegalCommand s) := by
  show stepHost x s = _
  rw [stepHost, hx]

/-- Every step but RESET's and a well-formed filter command's is the same with any filters in place. -/
theorem agentStep_withFilters {a : AgentStep} {s t : State} (hne : a ≠ .reset)
    (hi : ∀ i, Issues a i → i.usesChannel = true → i.wf s.cfg = false) (h : agentStep a s = .next t)
    (fs : List FilterState) : agentStep a (s.withFilters fs) = .next (t.withFilters fs) := by
  cases a with
  | host x =>
    cases hx : decode x with
    | ok i =>
      have hissues := issues_host_iff.2 hx
      rw [agentStep_of_issues hissues] at h ⊢
      exact (exec_withFilters (hi i hissues) fs).trans (congrArg (nextWithFilters fs) h)
    | error e =>
      rw [agentStep_of_undecoded hx] at h ⊢
      exact (whenRunning_withFilters rfl).trans (congrArg (nextWithFilters fs) h)
  | tick =>
    obtain ⟨h0, hrun, rfl⟩ := stepTick_next.1 h
    exact stepTick_next.2 ⟨h0, hrun, rfl⟩
  | service => exact stepService_withFilters h fs
  | reset => exact absurd rfl hne

/-- Settles O48: with other filters in place the step is the same; with its own filters put in their place, it shows that the step
left them as they were. -/
theorem tickServiceAndNonFilterHostStepsNeverTouchFilters :
    Obligations.TickServiceAndNonFilterHostStepsNeverTouchFilters := by
  intro a s t fs hne hread hinit h
  have hi : ∀ i, Issues a i → i.usesChannel = true → i.wf s.cfg = false := by
    intro i hissues hchannel
    cases i with
    | filterRead k v => exact hread k v hissues
    | filterInit k v => exact hinit k v hissues
    | _ => cases hchannel
  refine ⟨?_, agentStep_withFilters hne hi h fs⟩
  have hown : t = t.withFilters s.filters :=
    Host.Outcome.next.inj (h.symm.trans (agentStep_withFilters hne hi h s.filters))
  rw [hown]

end Sys2Proof.Machine
end

section
/-! The decoder against the encoder (30_encoding.md R63 to R66, R72). -/

namespace Sys2Proof.Machine

/-- A command word is determined by its three fields (30_encoding.md R63). -/
theorem eq_commandWord_iff {w : Word} {ch : Channel} {opc : Byte} :
    w = commandWord ch opc ↔ rsvField w = 0 ∧ opcField w = opc ∧ chField w = ch := by
  constructor
  · rintro rfl
    exact ⟨rsvField_commandWord _ _, opcField_commandWord _ _, chField_commandWord _ _⟩
  · rintro ⟨hrsv, rfl, rfl⟩
    exact (commandWord_fields hrsv).symm

/-- The opcode map selects a command exactly from its opcode, from its channel where it uses one, and from the operand words it
uses (30_encoding.md R64, R65). -/
theorem selectCommand_eq_some_iff {t : Transaction} {opc : Byte} {ch : Channel} {i : Instr} :
    selectCommand opc ch t.arg0 t.arg1 = some i ↔
      opc = i.opcode ∧ (i.usesChannel = true → ch = i.channel) ∧ OperandsOf t i := by
  constructor
  · intro h
    unfold selectCommand at h
    split at h
    all_goals cases h
    all_goals exact ⟨BitVec.eq_of_toNat_eq ‹_›, by simp [Instr.usesChannel, Instr.channel], by simp [OperandsOf]⟩
  · rintro ⟨rfl, hch, hops⟩
    cases i with
    | filterRead k v => obtain rfl := hch rfl; cases hops; rfl
    | filterInit k v => obtain rfl := hch rfl; cases hops; rfl
    | setRamp f r => obtain ⟨rfl, rfl⟩ := hops; rfl
    | _ => cases hops; rfl

/-- A transaction decodes to the command its opcode selects, where the checks on the reserved bits and on the channel pass
(30_encoding.md R72). -/
theorem decode_eq_ok_iff {t : Transaction} {i : Instr} : decode t = .ok i ↔
    rsvField t.cmdw = 0 ∧ selectCommand (opcField t.cmdw) (chField t.cmdw) t.arg0 t.arg1 = some i ∧
      (i.usesChannel = false → chField t.cmdw = 0) := by
  unfold decode
  split
  · next hrsv => exact ⟨nofun, fun h => absurd h.1 hrsv⟩
  · next hrsv =>
    split
    · next hnone => simp [hnone]
    · next j hj =>
      rw [hj, Option.some.injEq]
      split
      · next hch =>
        refine ⟨nofun, ?_⟩
        rintro ⟨-, rfl, hzero⟩
        exact absurd (hzero hch.1) hch.2
      · next hch =>
        rw [Except.ok.injEq]
        refine ⟨?_, fun h => h.2.1⟩
        rintro rfl
        exact ⟨not_not.1 hrsv, rfl, fun hnot => not_not.1 fun hne => hch ⟨hnot, hne⟩⟩

/-- A command that uses no channel has channel 0 (30_encoding.md R66). -/
theorem channel_of_not_usesChannel {i : Instr} (h : i.usesChannel = false) : i.channel = 0 := by
  cases i with
  | filterRead k v => cases h
  | filterInit k v => cases h
  | _ => rfl

/-- The encoder puts the operands where the command reads them (30_encoding.md R64). -/
theorem operandsOf_encode (i : Instr) : OperandsOf (encode i) i := by
  cases i with
  | setRamp f r => exact ⟨rfl, rfl⟩
  | start | stop | getFreq | popOvf | getStatus => trivial
  | _ => rfl

/-- Settles O3: the reserved bits and the opcode are checked either way; the channel is the command's own, by the opcode map if the
command uses it and by the check on `CH` if not. -/
theorem decodeReadsExactlyTheEncoding : Obligations.DecodeReadsExactlyTheEncoding := by
  intro t i
  show _ ↔ t.cmdw = commandWord i.channel i.opcode ∧ _
  rw [decode_eq_ok_iff, selectCommand_eq_some_iff, eq_commandWord_iff]
  cases huses : i.usesChannel with
  | true => tauto
  | false =>
    rw [channel_of_not_usesChannel huses]
    tauto

/-- Settles O2: an encoding has its own command word and its own operands. -/
theorem decodeOfEncodeIsTheCommand : Obligations.DecodeOfEncodeIsTheCommand := fun i =>
  (decodeReadsExactlyTheEncoding (encode i) i).2 ⟨rfl, operandsOf_encode i⟩

/-- Settles O1: each example is the encoding of its command. -/
theorem writtenOutWordsDecode : Obligations.WrittenOutWordsDecode :=
  have h := decodeOfEncodeIsTheCommand
  ⟨h .start, h .stop, h (.setFreq 1000), h (.setRamp 1500 1000), h .getFreq, h .popOvf, h .getStatus, h (.filterRead 1 500),
    h (.filterInit 0 512), h (.convPeriod 1000000), h (.convFreq 2000)⟩

end Sys2Proof.Machine
end

section
/-! Illegal and legal transactions (30_encoding.md R67 to R69): those in none of the cases (a) to (d) are exactly those that reach a
well-formed command, and the others trap. -/

namespace Sys2Proof.Machine

/-- The opcode map selects no command exactly for the opcodes outside its table (30_encoding.md R65, R68). -/
theorem selectCommand_eq_none_iff {opc : Byte} {ch : Channel} {arg0 arg1 : Word} :
    selectCommand opc ch arg0 arg1 = none ↔
      opc.toNat ∉ [0x01, 0x02, 0x03, 0x04, 0x05, 0x06, 0x07, 0x10, 0x11, 0x20, 0x21] := by
  unfold selectCommand
  split <;> simp_all

/-- The filter commands are those that use the channel (30_encoding.md R65, R66). -/
theorem opcode_mem_filter_iff {i : Instr} : i.opcode.toNat ∈ [0x10, 0x11] ↔ i.usesChannel = true := by
  cases i <;> simp [Instr.opcode, Instr.usesChannel]

/-- A command is well-formed unless it is a filter command whose operands fail their checks (30_encoding.md R66, R67). -/
theorem wf_iff_operands {c : Config} {t : Transaction} {i : Instr} (hops : OperandsOf t i) : i.wf c = true ↔
    (i.usesChannel = true → i.channel.toNat < c.numFilters ∧ t.arg0.toNat < 2 ^ c.sampleWidth) := by
  cases i with
  | filterRead k v =>
    cases hops
    exact filterOperandOk_iff.trans ⟨fun h _ => h, fun h => h rfl⟩
  | filterInit k v =>
    cases hops
    exact filterOperandOk_iff.trans ⟨fun h _ => h, fun h => h rfl⟩
  | _ => exact iff_of_true rfl nofun

/-- A transaction whose opcode selects `i` reaches a well-formed command exactly if the other checks of 30_encoding.md R67 pass. -/
theorem exists_wf_decode_iff {c : Config} {t : Transaction} {i : Instr}
    (hsel : selectCommand (opcField t.cmdw) (chField t.cmdw) t.arg0 t.arg1 = some i) :
    (∃ j, decode t = .ok j ∧ j.wf c = true) ↔
      rsvField t.cmdw = 0 ∧ (i.usesChannel = false → chField t.cmdw = 0) ∧ i.wf c = true := by
  simp only [decode_eq_ok_iff, hsel, Option.some.injEq]
  constructor
  · rintro ⟨j, ⟨hrsv, rfl, hch⟩, hwf⟩
    exact ⟨hrsv, hch, hwf⟩
  · rintro ⟨hrsv, hch, hwf⟩
    exact ⟨i, ⟨hrsv, rfl, hch⟩, hwf⟩

/-- The cases (a) to (d) of 30_encoding.md R67, complemented: they are read off the fields of the command word, and for the command
the opcode selects, (c) and (d) are its channel check and its operand checks. -/
theorem not_illegalTransaction_iff {c : Config} {t : Transaction} :
    ¬ IllegalTransaction c t ↔ ∃ i, decode t = .ok i ∧ i.wf c = true := by
  simp only [IllegalTransaction, ← opcField_toNat, ← chField_toNat]
  rw [ne_eq, ← rsvField_eq_zero_iff,
    ← selectCommand_eq_none_iff (ch := chField t.cmdw) (arg0 := t.arg0) (arg1 := t.arg1)]
  cases hsel : selectCommand (opcField t.cmdw) (chField t.cmdw) t.arg0 t.arg1 with
  | none => simp [decode_eq_ok_iff, hsel]
  | some i =>
    obtain ⟨hopc, hch, hops⟩ := selectCommand_eq_some_iff.1 hsel
    rw [exists_wf_decode_iff hsel, wf_iff_operands hops, hopc, opcode_mem_filter_iff]
    cases huses : i.usesChannel with
    | true => simp [hch huses]
    | false => simp [← BitVec.toNat_inj]

/-- A command whose operands fail their checks traps with code 3 before it does anything else (30_encoding.md R67 (c), (d)). -/
theorem exec_of_not_wf {i : Instr} {s : State} (h0 : s.fault.halted = false) (hwf : i.wf s.cfg = false) :
    exec i s = .next (s.trapped .illegalCommand) := by
  cases i with
  | filterRead k v =>
    show execFilterRead k v s = _
    rw [execFilterRead, whenRunning_of_running h0, filterOperand_of_not_ok hwf]
    rfl
  | filterInit k v =>
    show execFilterInit k v s = _
    rw [execFilterInit, whenRunning_of_running h0, filterOperand_of_not_ok hwf]
    rfl
  | _ => cases hwf

/-- Settles O5: a legal transaction decodes to a well-formed command, and HOST runs what decodes. -/
theorem legalTransactionRunsItsCommand : Obligations.LegalTransactionRunsItsCommand := by
  intro s t hlegal
  obtain ⟨i, hi, hwf⟩ := not_illegalTransaction_iff.1 hlegal
  exact ⟨i, hi, hwf, agentStep_of_issues (issues_host_iff.2 hi) s⟩

/-- Settles O4: the transaction does not decode and the port traps, or it decodes to a command that is not well-formed, which
traps. -/
theorem illegalTransactionTrapsAndChangesNothing : Obligations.IllegalTransactionTrapsAndChangesNothing := by
  intro s t h0 hillegal
  show agentStep (.host t) s = .next (s.trapped .illegalCommand)
  cases hdec : decode t with
  | error e =>
    rw [agentStep_of_undecoded hdec, whenRunning_of_running h0]
    rfl
  | ok i =>
    rw [agentStep_of_issues (issues_host_iff.2 hdec)]
    refine exec_of_not_wf h0 (Bool.eq_false_iff.2 fun hwf => ?_)
    exact not_illegalTransaction_iff.2 ⟨i, hdec, hwf⟩ hillegal

end Sys2Proof.Machine
end

section
/-! A command's step in a run, and what a step adds to the output trace (30_encoding.md R60, R62). -/

namespace Sys2Proof.Machine

/-- Settles O6: the step is the HOST's, and HOST runs what decodes. -/
theorem stepRunsDecodedCommand : Obligations.StepRunsDecodedCommand := by
  intro s t rest i hs hdec
  rw [step_of_cons hs]
  exact agentStep_of_issues (issues_host_iff.2 hdec) _

/-- Settles O23: the progress of each command, which needs no more of the invariant than the memory's form. -/
theorem everyCommandTakesItsStep : Obligations.EveryCommandTakesItsStep := fun i _ h0 hm => exec_progress h0 hm i

/-- Settles O50: a HOST step is a trap or writes no trace; SERVICE emits its PULSE first, and its trap keeps it. -/
theorem traceGrowsByPulseAndTrap : Obligations.TraceGrowsByPulseAndTrap := by
  intro a s t h
  cases a with
  | host x =>
    obtain ⟨h0, he⟩ := stepHost_next h
    cases he with
    | trapped code => simp
    | _ => simp [h0]
  | tick =>
    obtain ⟨h0, -, rfl⟩ := stepTick_next.1 h
    simp [h0]
  | service =>
    obtain ⟨⟨-, -, h0⟩, ⟨-, rfl⟩ | ⟨-, -, rfl⟩ | ⟨-, -, -, _, -, rfl⟩ | ⟨-, -, -, -, rfl⟩⟩ :=
      stepService_next h
    · simp [correctOverrun_eq, h0]
    · simp [correctOverrun_eq, h0]
    · simp [correctOverrun_eq, h0]
    · simp
  | reset =>
    cases h
    simp [FaultState.reset]

end Sys2Proof.Machine
end

section
/-! RUN_EVENT on a running timer (30_encoding.md R71): the wait ends at the compare match, the late ticks leave the event pending, and
its SERVICE does not trap. -/

namespace Sys2Proof.Machine

/-- `u` is `s` after some TICK steps, as RUN_EVENT sees it: the timer still runs, and neither the fault state nor the trace has
changed. -/
structure AfterTicks (s u : State) : Prop where
  inv : Inv u
  running : u.timer.running = true
  fault : u.fault = s.fault
  trace : u.trace = s.trace

theorem AfterTicks.refl {s : State} (hi : Inv s) (hrun : s.timer.running = true) : AfterTicks s s :=
  ⟨hi, hrun, rfl, rfl⟩

theorem AfterTicks.trans {s u v : State} (h : AfterTicks s u) (h' : AfterTicks u v) : AfterTicks s v :=
  ⟨h'.inv, h'.running, h'.fault.trans h.fault, h'.trace.trans h.trace⟩

/-- TICK has a step while the timer runs (42_timer_sequencer.md R110). -/
theorem stepTick_of_running {s : State} (h0 : s.fault.halted = false) (hrun : s.timer.running = true) :
    stepTick s = .next { s with timer := s.timer.tick s.cfg.compareWidth } :=
  stepTick_next.2 ⟨h0, hrun, rfl⟩

theorem afterTicks_of_stepTick {s t : State} (hi : Inv s) (h : stepTick s = .next t) : AfterTicks s t := by
  have hinv := stepTick_inv hi h
  obtain ⟨-, hrun, rfl⟩ := stepTick_next.1 h
  exact ⟨hinv, (TimerRegs.tick_running _ _).trans hrun, rfl, rfl⟩

/-- TICK does not clear a pending event (42_timer_sequencer.md R111). -/
theorem TimerRegs.tick_pending {w : Nat} {t : TimerRegs} (h : t.pending = true) : (t.tick w).pending = true := by
  unfold TimerRegs.tick
  split
  · rfl
  · exact h

/-- How many TICK steps only count before the compare match (42_timer_sequencer.md R110, 70_reset_and_hazards.md R165). -/
def TimerRegs.ticksToMatch (width : Nat) (t : TimerRegs) : Nat :=
  if t.counter.toNat ≤ t.cmp.toNat then t.cmp.toNat - t.counter.toNat
  else 2 ^ width - t.counter.toNat + t.cmp.toNat

/-- A TICK that is not the match is one TICK fewer to it. -/
theorem TimerRegs.ticksToMatch_tick {w : Nat} {t : TimerRegs} (hcmp : t.cmp.toNat < 2 ^ w)
    (hcounter : t.counter.toNat < 2 ^ w) (hw : 2 ^ w ≤ 2 ^ 32) (hne : t.counter ≠ t.cmp) :
    (t.tick w).ticksToMatch w + 1 = t.ticksToMatch w := by
  have hne' : t.counter.toNat ≠ t.cmp.toNat := mt BitVec.eq_of_toNat_eq hne
  have hmod := Nat.mod_lt (t.counter.toNat + 1) (y := 2 ^ w) (by omega)
  rw [TimerRegs.tick_count hne]
  simp only [TimerRegs.ticksToMatch]
  rw [toNat_ofNat_of_lt (by omega)]
  by_cases hwrap : t.counter.toNat + 1 = 2 ^ w
  · rw [hwrap, Nat.mod_self]
    split <;> split <;> omega
  · rw [Nat.mod_eq_of_lt (by omega)]
    split <;> split <;> omega

/-- The wait for a pending event is over (30_encoding.md R71). -/
theorem runUntilPending_of_pending {fuel : Nat} {s : State} (h : s.timer.pending = true) :
    runUntilPending fuel s = .next s := by
  cases fuel with
  | zero => exact if_pos h
  | succ fuel => exact if_pos h

/-- With more fuel than TICK steps before the match, the wait for it ends with the event pending (30_encoding.md R71). -/
theorem runUntilPending_next {fuel : Nat} {s : State} (hi : Inv s) (h0 : s.fault.halted = false)
    (hrun : s.timer.running = true) (hfuel : s.timer.ticksToMatch s.cfg.compareWidth < fuel) :
    ∃ u, runUntilPending fuel s = .next u ∧ AfterTicks s u ∧ u.timer.pending = true := by
  induction fuel generalizing s with
  | zero => exact absurd hfuel (Nat.not_lt_zero _)
  | succ fuel ih =>
    by_cases hpending : s.timer.pending = true
    · exact ⟨s, runUntilPending_of_pending hpending, .refl hi hrun, hpending⟩
    · have htick := stepTick_of_running h0 hrun
      have hafter := afterTicks_of_stepTick hi htick
      rw [runUntilPending, if_neg hpending, htick]
      by_cases hmatch : s.timer.counter = s.timer.cmp
      · have hset : (s.timer.tick s.cfg.compareWidth).pending = true := by rw [TimerRegs.tick_match hmatch]
        exact ⟨_, runUntilPending_of_pending hset, hafter, hset⟩
      · have hcloser := TimerRegs.ticksToMatch_tick hi.cmpWidth hi.counterWidth
          (s.cfg.two_pow_width.2.trans (by decide)) hmatch
        rw [← hcloser] at hfuel
        obtain ⟨u, hu, hrest, hup⟩ := ih hafter.inv h0 hafter.running (Nat.lt_of_succ_lt_succ hfuel)
        exact ⟨u, hu, hafter.trans hrest, hup⟩

/-- Late ticks leave a pending event pending (30_encoding.md R71). -/
theorem runSteps_ticks {n : Nat} {s : State} {rest : List AgentStep} (hi : Inv s) (h0 : s.fault.halted = false)
    (hrun : s.timer.running = true) (hpending : s.timer.pending = true) :
    ∃ u, runSteps (List.replicate n .tick ++ rest) s = runSteps rest u ∧ AfterTicks s u ∧ u.timer.pending = true := by
  induction n generalizing s with
  | zero => exact ⟨s, rfl, .refl hi hrun, hpending⟩
  | succ n ih =>
    have htick := stepTick_of_running h0 hrun
    have hafter := afterTicks_of_stepTick hi htick
    obtain ⟨u, hu, hrest, hup⟩ := ih hafter.inv h0 hafter.running (TimerRegs.tick_pending hpending)
    refine ⟨u, ?_, hafter.trans hrest, hup⟩
    rw [← hu]
    exact congrArg (andThen · (runSteps _)) htick

/-- From a state with the invariant SERVICE takes the pending event and does not trap (42_timer_sequencer.md R118). -/
theorem stepService_of_inv {s : State} (hi : Inv s) (h : ServiceReady s) :
    ∃ t, stepService s = .next t ∧ t.timer.pending = false ∧ t.fault = s.fault := by
  obtain ⟨t, ht⟩ := stepService_progress hi h
  refine ⟨t, ht, ?_⟩
  obtain ⟨-, ⟨-, rfl⟩ | ⟨-, -, rfl⟩ | ⟨-, -, -, _, -, rfl⟩ | ⟨he, -, -, hnone, -⟩⟩ := stepService_next ht
  · simp [correctOverrun_eq]
  · simp [correctOverrun_eq]
  · simp [correctOverrun_eq]
  · have hok := hi.adjusted_ok (hi.pendingMatch h.1).1 he
    simp [compareValue?_of_ok hok] at hnone

/-- Settles O39: the match is fewer than `2^W` TICK steps away; the wait and the late ticks leave a ready SERVICE, which does not trap,
so the trace grows by its PULSE alone. -/
theorem runEventEndsWithOnePulse : Obligations.RunEventEndsWithOnePulse := by
  intro s late hi h0 hrun
  have hnear : s.timer.ticksToMatch s.cfg.compareWidth < 2 ^ s.cfg.compareWidth := by
    have hcmp := hi.cmpWidth
    have hcounter := hi.counterWidth
    unfold TimerRegs.ticksToMatch
    split <;> omega
  obtain ⟨u, hu, hwait, hup⟩ := runUntilPending_next hi h0 hrun hnear
  have hu0 : u.fault.halted = false := by rw [hwait.fault, h0]
  obtain ⟨v, hv, hlate, hvp⟩ := runSteps_ticks (n := late) (rest := [.service]) hwait.inv hu0 hwait.running hup
  have hticks := hwait.trans hlate
  have hv0 : v.fault.halted = false := by rw [hticks.fault, h0]
  have hready : ServiceReady v := ⟨hvp, hticks.inv.ieRunning.trans hticks.running, hv0⟩
  obtain ⟨t, ht, htp, htf⟩ := stepService_of_inv hticks.inv hready
  have htrace := traceGrowsByPulseAndTrap .service v t ht
  refine ⟨t, ?_, ?_, htp, htf.trans hticks.fault⟩
  · show andThen (runUntilPending _ s) _ = _
    rw [hu]
    show runSteps _ u = _
    rw [hv]
    exact congrArg (andThen · _) ht
  · simpa [htf, hv0, hticks.trace] using htrace

end Sys2Proof.Machine
end

section
/-! The converter (40_converter.md R82 to R86): which frequencies have a compare value, how close it is to the true period, and the
answers of the two query commands. -/

namespace Sys2Proof.Machine

theorem compareValue?_isSome_iff {c : Config} {f : Nat} : (compareValue? c f).isSome = true ↔ FrequencyOk c f := by
  rw [compareValue?_eq, Option.isSome_ite]

/-- In the reference configuration, with `TICK_NS = 500` and `W = 16`, the period is `2000000 / f` ticks (40_converter.md R83). -/
theorem frequencyOk_reference_iff {f : Nat} : FrequencyOk Config.reference f ↔ 31 ≤ f ∧ f ≤ 1000000 := by
  have hticks : periodTicksOf Config.reference f = 2000000 / f := Nat.div_right_comm ..
  have hwidth : 2 ^ Config.reference.compareWidth - 1 = 65535 := rfl
  rw [frequencyOk_iff, hticks, hwidth]
  rcases Nat.eq_zero_or_pos f with rfl | hf
  · simp
  · have hmin : 2 ≤ 2000000 / f ↔ 2 * f ≤ 2000000 := Nat.le_div_iff_mul_le hf
    have hmax : 2000000 / f < 65536 ↔ 2000000 < 65536 * f := Nat.div_lt_iff_lt_mul hf
    omega

/-- Settles O9: the ticks do not increase with the frequency, so what lies between two frequencies in range is in range; in the
reference configuration the range is solved for `f`. -/
theorem validFrequenciesFormAnInterval : Obligations.ValidFrequenciesFormAnInterval := by
  refine ⟨fun c f1 f2 h1 h12 => ?_, fun c f1 f f2 hlo hhi h1 h2 => ?_, fun f => ?_⟩
  · have hf1 : f1 ≠ 0 := by omega
    have hf2 : f2 ≠ 0 := by omega
    have hanti := periodTicksOf_antitone (c := c) hf1 h12
    exact ⟨_, _, ticksForFrequency_of_ne_zero hf1, ticksForFrequency_of_ne_zero hf2, by omega⟩
  · rw [compareValue?_isSome_iff] at h1 h2 ⊢
    exact frequencyOk_between h1 h2 hlo hhi
  · rw [compareValue?_isSome_iff, frequencyOk_reference_iff]

/-- The ticks of a frequency are one truncated division: the whole tick periods in `10^9 / f` ns (40_converter.md R81, R82). -/
theorem periodTicksOf_bounds {c : Config} {f : Nat} (hf : f ≠ 0) :
    periodTicksOf c f * (c.tickNs * f) ≤ 1000000000 ∧ 1000000000 < (periodTicksOf c f + 1) * (c.tickNs * f) := by
  have hpos : 0 < c.tickNs * f := Nat.mul_pos c.tickNs_pos (Nat.pos_of_ne_zero hf)
  have hticks : periodTicksOf c f = 1000000000 / (c.tickNs * f) := by
    rw [periodTicksOf, Nat.div_div_eq_div_mul, Nat.mul_comm]
  rw [hticks]
  exact ⟨Nat.div_mul_le_self .., (Nat.div_lt_iff_lt_mul hpos).1 (Nat.lt_add_one _)⟩

/-- Settles O10: the ticks of `f` are `c + 1`, and as its two truncations are one, the true period is already below
`(c+2) * TICK_NS`: the rule's further 1 ns is slack. -/
theorem compareValueWithinOneTickOfThePeriod : Obligations.CompareValueWithinOneTickOfThePeriod := by
  intro cfg f c h
  obtain ⟨⟨hf, -⟩, hticks, -⟩ := compareValue?_some h
  obtain ⟨hlo, hhi⟩ := periodTicksOf_bounds (c := cfg) hf
  rw [← hticks] at hlo hhi
  refine ⟨by rwa [Nat.mul_assoc], ?_⟩
  calc 1000000000 < (c + 1 + 1) * (cfg.tickNs * f) := hhi
    _ = (c + 2) * cfg.tickNs * f := (Nat.mul_assoc ..).symm
    _ ≤ ((c + 2) * cfg.tickNs + 1) * f := Nat.mul_le_mul_right f (Nat.le_succ _)

/-- Settles O11: the encoding fixes the command, the range check over the integers is the one of the statement, and either answer
writes the response alone. -/
theorem convPeriodAnswers : Obligations.ConvPeriodAnswers := by
  have hword : (0x20 : Word) = commandWord 0 0x20 := rfl
  refine ⟨fun a0 a1 => (decodeReadsExactlyTheEncoding _ _).2 ⟨hword, rfl⟩, fun s p h0 => ?_⟩
  intro t
  show execConvPeriod p s = _
  rw [execConvPeriod, whenRunning_of_running h0]
  by_cases ht : 1 ≤ t ∧ t ≤ 2 ^ s.cfg.compareWidth - 2
  · rw [if_pos ht]
    exact if_pos (valid_natCast_iff.2 ht)
  · rw [if_neg ht]
    exact if_neg (mt valid_natCast_iff.1 ht)

/-- Settles O12: the encoding fixes the command, a compare value is there exactly for a frequency in range, and either answer writes
the response alone. -/
theorem convFreqAnswers : Obligations.ConvFreqAnswers := by
  have hword : (0x21 : Word) = commandWord 0 0x21 := rfl
  refine ⟨fun a0 a1 => (decodeReadsExactlyTheEncoding _ _).2 ⟨hword, rfl⟩, fun s f h0 => ?_⟩
  show execConvFreq f s = _
  rw [execConvFreq, whenRunning_of_running h0]
  by_cases hf : FrequencyOk s.cfg f.toNat
  · rw [compareValue?_of_ok hf, if_pos hf]
    rfl
  · rw [compareValue?_of_not_ok hf, if_neg hf]
    rfl

end Sys2Proof.Machine
end

section
/-! The ramp parameters (41_ramp_controller.md R90, R91): the step is the least one that reaches the safety floor. -/

namespace Sys2Proof.Machine

/-- There is one smallest step, the `stepHz` of `rampParams` (41_ramp_controller.md R90). -/
theorem smallestStep_iff {c : Config} {r n : Nat} :
    SmallestStep c r n ↔ n = max 1 (ceilDiv (r * c.safetyFloorNs) 1000000000) := by
  have hreach (m : Nat) : ceilDiv (r * c.safetyFloorNs) 1000000000 ≤ m ↔ r * c.safetyFloorNs ≤ m * 1000000000 :=
    ceilDiv_le_iff (by decide)
  unfold SmallestStep
  rw [← hreach, ← not_le, ← hreach]
  omega

/-- Settles O13: the smallest step is the step of `rampParams`, and the other conditions are its three checks. -/
theorem rampParamsAreTheSmallestStep : Obligations.RampParamsAreTheSmallestStep := by
  intro c r n p
  constructor
  · intro h
    obtain ⟨hr, hn, hp, -, hlt, hp1, hpmax, -⟩ := rampParams_some h
    exact ⟨hr, smallestStep_iff.2 hn, hlt, hp, hp1, hpmax⟩
  · rintro ⟨hr, hsmall, hlt, rfl, hp1, hpmax⟩
    obtain rfl := smallestStep_iff.1 hsmall
    exact rampParams_of hr hlt hp1 hpmax

theorem rampParams_eq_none {c : Config} {r : Nat} (h : ∀ n p, ¬ RampParamsAre c r n p) : rampParams c r = none :=
  Option.eq_none_iff_forall_ne_some.2 fun (n, p) hnp => h n p ((rampParamsAreTheSmallestStep c r n p).1 hnp)

end Sys2Proof.Machine
end

section
/-! The ramp controller's commands (41_ramp_controller.md R92 to R99): each command word decodes to its command, and the command's whole
next state. -/

namespace Sys2Proof.Machine

/-- Settles O14: `CUR_FREQ` has a compare value exactly where it is in range. -/
theorem startArmsTheTimerOrTraps : Obligations.StartArmsTheTimerOrTraps := by
  refine ⟨fun _ _ => (decodeReadsExactlyTheEncoding _ _).2 ⟨rfl, trivial⟩, fun s h0 => ?_⟩
  show (_ → execStart s = _) ∧ (_ → execStart s = _)
  rw [execStart, whenRunning_of_running h0]
  constructor
  · intro hf
    rw [compareValue?_of_ok hf]
    rfl
  · intro hf
    rw [compareValue?_of_not_ok hf]
    rfl

/-- Settles O16: `freqHz` has a compare value exactly where it is in range. -/
theorem setFreqCommitsOrTraps : Obligations.SetFreqCommitsOrTraps := by
  have hword : (0x03 : Word) = commandWord 0 0x03 := rfl
  refine ⟨fun _ _ => (decodeReadsExactlyTheEncoding _ _).2 ⟨hword, rfl⟩, fun s f h0 => ⟨fun hf => ?_, fun hf => ?_⟩⟩
  · exact execSetFreq_of_compareValue h0 (compareValue?_of_ok hf)
  · show execSetFreq f s = _
    rw [execSetFreq, whenRunning_of_running h0, compareValue?_of_not_ok hf]
    rfl

theorem eq_ofNat_iff_toNat_eq {w : Word} {n : Nat} (h : n < 2 ^ 32) : w = BitVec.ofNat 32 n ↔ w.toNat = n := by
  rw [← BitVec.toNat_inj, toNat_ofNat_of_lt h]

/-- `arm` compares registers; where the parameters fit their registers it compares numbers (41_ramp_controller.md R95). -/
theorem RampState.arm_accTicks_of_lt {r : RampState} {f : Word} {n p : Nat} (hn : n < 2 ^ 32) (hp : p < 2 ^ 32) :
    (r.arm f (BitVec.ofNat 32 n) (BitVec.ofNat 32 p)).accTicks =
      if r.rampEn = true ∧ r.target = f ∧ r.stepHz.toNat = n ∧ r.periodTicks.toNat = p then r.accTicks else 0 := by
  simp only [RampState.arm_accTicks, eq_ofNat_iff_toNat_eq hn, eq_ofNat_iff_toNat_eq hp]

/-- Settles O17: the target is checked by its compare value and the rate by `rampParams`; the parameters fit their registers, so the
comparison that keeps `ACC_TICKS` is one of numbers. -/
theorem setRampArmsOrTraps : Obligations.SetRampArmsOrTraps := by
  have hword : (0x04 : Word) = commandWord 0 0x04 := rfl
  refine ⟨fun _ _ => (decodeReadsExactlyTheEncoding _ _).2 ⟨hword, rfl, rfl⟩, fun s f r h0 => ?_⟩
  show (_ → execSetRamp f r s = _) ∧ (_ → _ → execSetRamp f r s = _) ∧ (_ → ∀ _ _, _ → execSetRamp f r s = _)
  rw [execSetRamp, whenRunning_of_running h0]
  refine ⟨fun hf => ?_, fun hf hnone => ?_, fun hf n p hparams => ?_⟩
  · rw [compareValue?_of_not_ok hf]
    rfl
  · rw [compareValue?_of_ok hf, rampParams_eq_none hnone]
    rfl
  · have hsome := (rampParamsAreTheSmallestStep s.cfg r.toNat n p).2 hparams
    obtain ⟨-, -, -, -, hn, -, -, hp⟩ := rampParams_some hsome
    rw [compareValue?_of_ok hf, hsome, ← RampState.arm_accTicks_of_lt hn hp]
    rfl

/-- Settles O21: of what a command can do, only the trap ends halted. -/
theorem trappingCommandWritesNothing : Obligations.TrappingCommandWritesNothing := by
  intro i s t h ht
  obtain ⟨h0, he⟩ := exec_next (decodeOfEncodeIsTheCommand i) h
  cases he with
  | trapped code => exact ⟨h0, trapNumber code, by simpa using trapNumber_mem code, rfl⟩
  | _ => simp [h0] at ht

/-- Settles O15: past the gate STOP is its writes and its answer. -/
theorem stopDisarmsTheTimer : Obligations.StopDisarmsTheTimer :=
  ⟨fun _ _ => (decodeReadsExactlyTheEncoding _ _).2 ⟨rfl, trivial⟩, fun _ h0 => whenRunning_of_running h0⟩

/-- Settles O18: past the gate GET_FREQ is its answer. -/
theorem getFreqReadsTheLiveFrequency : Obligations.GetFreqReadsTheLiveFrequency :=
  ⟨fun _ _ => (decodeReadsExactlyTheEncoding _ _).2 ⟨rfl, trivial⟩, fun _ h0 => whenRunning_of_running h0⟩

/-- Settles O19: past the gate POP_OVF is its answer and its one write. -/
theorem popOvfReadsAndClears : Obligations.PopOvfReadsAndClears :=
  ⟨fun _ _ => (decodeReadsExactlyTheEncoding _ _).2 ⟨rfl, trivial⟩, fun _ h0 => whenRunning_of_running h0⟩

/-- The status word as a number: the four flags with their weights (41_ramp_controller.md R98). -/
theorem statusWord_eq (ramp : RampState) (timer : TimerRegs) : statusWord ramp timer = BitVec.ofNat 32
    (timer.running.toNat + 2 * timer.ie.toNat + 4 * ramp.rampEn.toNat + 8 * timer.pending.toNat) := by
  have hbits (running ie rampEn pending : Bool) :
      0#28 ++ BitVec.ofBool pending ++ BitVec.ofBool rampEn ++ BitVec.ofBool ie ++ BitVec.ofBool running =
        BitVec.ofNat 32 (running.toNat + 2 * ie.toNat + 4 * rampEn.toNat + 8 * pending.toNat) := by
    revert running ie rampEn pending
    decide
  exact hbits ..

/-- Settles O20: past the gate GET_STATUS is its answer, the status word. -/
theorem getStatusReadsTheFlags : Obligations.GetStatusReadsTheFlags := by
  refine ⟨fun _ _ => (decodeReadsExactlyTheEncoding _ _).2 ⟨rfl, trivial⟩, fun s h0 => ?_⟩
  rw [← statusWord_eq]
  exact whenRunning_of_running h0

end Sys2Proof.Machine
end

section
/-! TICK (42_timer_sequencer.md R110, R111): one step at the compare value and elsewhere, and how many steps lead to the match. -/

namespace Sys2Proof.Machine

/-- Settles O26: the timer's tick at `COUNTER = CMP`. -/
theorem tickAtCompareIsTheMatch : Obligations.TickAtCompareIsTheMatch := by
  rintro s ⟨hrun, h0⟩ hmatch
  rw [stepTick_of_running h0 hrun, TimerRegs.tick_match hmatch]

/-- Settles O27: the timer's tick off `CMP`, and the check of `RUNNING` before it. -/
theorem tickElsewhereCounts : Obligations.TickElsewhereCounts := by
  refine fun s h0 => ⟨fun hrun hne => ?_, fun hstopped => ?_⟩
  · rw [stepTick_of_running h0 hrun, TimerRegs.tick_count hne]
  · rw [stepTick, whenRunning_of_running h0, hstopped]
    rfl

theorem runSteps_append (run rest : List AgentStep) (s : State) :
    runSteps (run ++ rest) s = andThen (runSteps run s) (runSteps rest) := by
  induction run generalizing s with
  | nil => rfl
  | cons a run ih =>
    show andThen (agentStep a s) (runSteps (run ++ rest)) = andThen (andThen (agentStep a s) (runSteps run)) _
    cases agentStep a s with
    | next u => exact ih u
    | fault r => rfl
    | refused r => rfl

/-- A run of one more TICK is the run and then the TICK. -/
theorem runSteps_ticks_succ {n : Nat} {s u : State} (h : runSteps (List.replicate n .tick) s = .next u) :
    runSteps (List.replicate (n + 1) .tick) s = stepTick u := by
  rw [List.replicate_succ', runSteps_append, h]
  show andThen (stepTick u) .next = stepTick u
  cases stepTick u <;> rfl

/-- TICK steps that meet no compare match only count, modulo `2^W` (42_timer_sequencer.md R110). -/
theorem runSteps_ticks_count {s : State} {n : Nat} (hready : TickReady s)
    (hcounter : s.timer.counter.toNat < 2 ^ s.cfg.compareWidth)
    (hne : ∀ j < n, (s.timer.counter.toNat + j) % 2 ^ s.cfg.compareWidth ≠ s.timer.cmp.toNat) :
    runSteps (List.replicate n .tick) s = .next { s with timer :=
      { s.timer with counter := BitVec.ofNat 32 ((s.timer.counter.toNat + n) % 2 ^ s.cfg.compareWidth) } } := by
  have hpow := s.cfg.two_pow_width
  induction n with
  | zero =>
    rw [Nat.add_zero, Nat.mod_eq_of_lt hcounter, BitVec.ofNat_toNat, BitVec.setWidth_eq]
    rfl
  | succ n ih =>
    have hcount := Nat.mod_lt (s.timer.counter.toNat + n) (y := 2 ^ s.cfg.compareWidth) (by omega)
    have hread : (BitVec.ofNat 32 ((s.timer.counter.toNat + n) % 2 ^ s.cfg.compareWidth)).toNat =
        (s.timer.counter.toNat + n) % 2 ^ s.cfg.compareWidth := toNat_ofNat_of_lt (by omega)
    have hoff : BitVec.ofNat 32 ((s.timer.counter.toNat + n) % 2 ^ s.cfg.compareWidth) ≠ s.timer.cmp := by
      rw [Ne, ← BitVec.toNat_inj, hread]
      exact hne n (by omega)
    rw [runSteps_ticks_succ (ih fun j hj => hne j (by omega)), stepTick_of_running, TimerRegs.tick_count hoff]
    · simp only [hread, Nat.mod_add_mod, Nat.add_assoc]
    · exact hready.2
    · exact hready.1

/-- Settles O28: from 0 the counter is `j` after `j` TICKs, so TICK number `CMP + 1` is the first to find it at `CMP`. -/
theorem matchComesAfterComparePlusOneTicks : Obligations.MatchComesAfterComparePlusOneTicks := by
  intro s n hready hzero hcmp
  have hfrom : s.timer.counter.toNat = 0 := by rw [hzero]; rfl
  have hcount : ∀ m ≤ s.timer.cmp.toNat, runSteps (List.replicate m .tick) s =
      .next { s with timer := { s.timer with counter := BitVec.ofNat 32 m } } := by
    intro m hm
    have hmod : ∀ j ≤ m, (s.timer.counter.toNat + j) % 2 ^ s.cfg.compareWidth = j := fun j hj => by
      rw [hfrom, Nat.zero_add, Nat.mod_eq_of_lt (by omega)]
    rw [runSteps_ticks_count hready, hmod m le_rfl]
    · omega
    · intro j hj
      rw [hmod j hj.le]
      omega
  refine ⟨hcount n, ?_⟩
  rintro rfl
  rw [runSteps_ticks_succ (hcount _ le_rfl), BitVec.ofNat_toNat, BitVec.setWidth_eq]
  exact tickAtCompareIsTheMatch _ hready rfl

end Sys2Proof.Machine
end

section
/-! SERVICE as a whole next state (42_timer_sequencer.md R112 to R118): without an adjustment, with one, and where its range check
fails, which no reachable state meets. -/

namespace Sys2Proof.Machine

/-- Settles O30: step 2 of the service writes nothing, or `ACC_TICKS` alone, and step 3 is in closed form. -/
theorem serviceWithoutAdjustment : Obligations.ServiceWithoutAdjustment := by
  refine fun s hready => ⟨fun hoff => ?_, fun hon hshort => ?_⟩
  · rw [stepService_of_ready hready, advanceRamp_disabled (s := pulse s) hoff]
    exact congrArg _ (correctOverrun_eq _)
  · rw [stepService_of_ready hready, advanceRamp_hold (s := pulse s) hon hshort]
    exact congrArg _ (correctOverrun_eq _)

/-- Settles O31: a frequency in range has a compare value, which fits `CMP`, so step 3 measures against it. -/
theorem serviceAdjustsTowardTheTarget : Obligations.ServiceAdjustsTowardTheTarget := by
  intro s hready hon hperiod hfull hok f cmp
  have hsome : compareValue? s.cfg f = some cmp := compareValue?_of_ok hok
  obtain ⟨-, -, -, -, hfits⟩ := compareValue?_some hsome
  rw [stepService_of_ready hready, advanceRamp_adjust (s := pulse s) hon hperiod hfull, adjustedFrequency_pulse,
    pulse_cfg, hsome]
  simp only [correctOverrun_eq, toNat_ofNat_of_lt hfits]
  rfl

/-- Settles O32: a frequency out of range has no compare value, and the trap is from the state after step 1. -/
theorem serviceTrapKeepsOnlyThePulse : Obligations.ServiceTrapKeepsOnlyThePulse := by
  intro s hready hon hperiod hfull hbad
  rw [stepService_of_ready hready, advanceRamp_adjust (s := pulse s) hon hperiod hfull, adjustedFrequency_pulse,
    pulse_cfg, compareValue?_of_not_ok hbad]
  rfl

/-- Settles O34: a reachable state has the invariant, from which SERVICE keeps the fault state. -/
theorem noReachableServiceTraps : Obligations.NoReachableServiceTraps := by
  intro s hs hready
  obtain ⟨t, ht, -, hfault⟩ := stepService_of_inv hs.inv hready
  exact ⟨t, ht, hfault ▸ hready.2.2⟩

end Sys2Proof.Machine
end

section
/-! The ramp under SERVICE (42_timer_sequencer.md R114, R121, R122): the same SET_RAMP again does not disturb it, and it never
overshoots. -/

namespace Sys2Proof.Machine

theorem RampState.arm_self {r : RampState} (hon : r.rampEn = true) : r.arm r.target r.stepHz r.periodTicks = r := by
  simp [RampState.arm, ← hon]

/-- Settles O25: the parameters the first SET_RAMP gave are the armed ones, so arming with them changes nothing. -/
theorem rearmingTheSameRampIsInvisible : Obligations.RearmingTheSameRampIsInvisible := by
  intro s t f r h ht u hcfg h0 hon htarget hstep hperiod
  obtain ⟨-, ⟨-, rfl⟩ | ⟨c, hc, ⟨-, rfl⟩ | ⟨n, p, hr, rfl⟩⟩⟩ := execSetRamp_next h
  · cases ht
  · cases ht
  · have harmed := RampState.arm_self hon
    rw [htarget, hstep, hperiod] at harmed
    have hcfg' : u.cfg = s.cfg := hcfg
    rw [← hcfg'] at hc hr
    exact execSetRamp_of_armed h0 hc hr harmed

/-- What a SERVICE from a state with the invariant does to the ramp (42_timer_sequencer.md R113 to R115): nothing but the overrun
count if the ramp is disabled; if it is armed, it accumulates, or with a full period it adjusts. -/
theorem stepService_ramp {s t : State} (hi : Inv s) (h : stepService s = .next t) : ∃ ovf,
    (s.ramp.rampEn = false ∧ t.ramp = { s.ramp with ovfTicks := ovf }) ∨
    (s.ramp.rampEn = true ∧ accumulated s < s.ramp.periodTicks.toNat ∧
      t.ramp = { s.ramp with accTicks := BitVec.ofNat 32 (accumulated s), ovfTicks := ovf }) ∨
    (s.ramp.rampEn = true ∧ s.ramp.periodTicks.toNat ≤ accumulated s ∧
      t.ramp = { s.ramp with
        curFreq := BitVec.ofNat 32 (adjustedFrequency s)
        rampEn := decide (adjustedFrequency s ≠ s.ramp.target.toNat)
        accTicks := BitVec.ofNat 32 (accumulated s % s.ramp.periodTicks.toNat)
        ovfTicks := ovf }) := by
  have hready := stepService_ready_of_next h
  cases hon : s.ramp.rampEn with
  | false =>
    cases h.symm.trans ((serviceWithoutAdjustment s hready).1 hon)
    exact ⟨_, .inl ⟨rfl, rfl⟩⟩
  | true =>
    by_cases hfull : s.ramp.periodTicks.toNat ≤ accumulated s
    · have hok := hi.adjusted_ok (hi.pendingMatch hready.1).1 hon
      obtain ⟨-, -, hperiod, -, -⟩ := hi.ramping hon
      cases h.symm.trans (serviceAdjustsTowardTheTarget s hready hon hperiod hfull hok)
      exact ⟨_, .inr (.inr ⟨rfl, hfull, rfl⟩)⟩
    · have hshort := Nat.lt_of_not_le hfull
      cases h.symm.trans ((serviceWithoutAdjustment s hready).2 hon hshort)
      exact ⟨_, .inr (.inl ⟨rfl, hshort, rfl⟩)⟩

/-- An adjustment lands on the target or moves by at least `STEP_HZ` (42_timer_sequencer.md R114, R121). -/
theorem adjustedFrequency_moves {s : State} (hperiod : 1 ≤ s.ramp.periodTicks.toNat)
    (hfull : s.ramp.periodTicks.toNat ≤ accumulated s) :
    adjustedFrequency s = s.ramp.target.toNat ∨ s.ramp.curFreq.toNat + s.ramp.stepHz.toNat ≤ adjustedFrequency s ∨
      adjustedFrequency s + s.ramp.stepHz.toNat ≤ s.ramp.curFreq.toNat := by
  have hdelta := Nat.le_mul_of_pos_right s.ramp.stepHz.toNat (Nat.div_pos hfull hperiod)
  simp only [adjustedFrequency]
  split <;> omega

/-- Settles O35: the adjusted frequency lies between the old one and the target, and it moves or lands; without an adjustment
`CUR_FREQ` is kept. -/
theorem rampNeverOvershoots : Obligations.RampNeverOvershoots := by
  intro s t hi h hon
  obtain ⟨-, -, hperiod, -, -⟩ := hi.ramping hon
  obtain ⟨ovf, ⟨hoff, -⟩ | ⟨-, hshort, hramp⟩ | ⟨-, hfull, hramp⟩⟩ := stepService_ramp hi h
  · simp [hon] at hoff
  · have hnot := Nat.not_le.2 hshort
    rw [hramp]
    exact ⟨rfl, fun hle => ⟨le_rfl, hle⟩, fun hle => ⟨le_rfl, hle⟩, fun h => absurd h hnot, fun h => absurd h hnot⟩
  · have hlt := adjustedFrequency_lt s
    have hbetween := adjustedFrequency_between s
    have harrived : BitVec.ofNat 32 (adjustedFrequency s) = s.ramp.target ↔
        adjustedFrequency s = s.ramp.target.toNat := by
      rw [eq_comm, eq_ofNat_iff_toNat_eq hlt, eq_comm]
    simp only [hramp, toNat_ofNat_of_lt hlt, harrived, decide_eq_false_iff_not, not_not, implies_true, and_true,
      true_and]
    exact ⟨fun hle => by omega, fun hle => by omega, fun _ => adjustedFrequency_moves hperiod hfull⟩

end Sys2Proof.Machine
end

section
/-! The end of a ramp (42_timer_sequencer.md R121): each SERVICE brings it nearer, so a run with enough of them reaches the target,
and a fair run has enough of them. -/

namespace Sys2Proof.Machine

/-- A bound on the SERVICE steps an armed ramp still takes: `PERIOD_TICKS` for each hertz to the target, and what is left of the
current period; none once the ramp is disabled (42_timer_sequencer.md R121). -/
def servicesLeft (s : State) : Nat :=
  if s.ramp.rampEn then
    s.ramp.periodTicks.toNat * absDiff s.ramp.curFreq.toNat s.ramp.target.toNat +
      (s.ramp.periodTicks.toNat - s.ramp.accTicks.toNat)
  else 0

theorem servicesLeft_of_armed {s : State} (hon : s.ramp.rampEn = true) : servicesLeft s =
    s.ramp.periodTicks.toNat * absDiff s.ramp.curFreq.toNat s.ramp.target.toNat +
      (s.ramp.periodTicks.toNat - s.ramp.accTicks.toNat) := if_pos hon

/-- A ramp toward `target` is under way, or has ended there. -/
structure RampToward (target : Word) (s : State) : Prop where
  inv : Inv s
  target_eq : s.ramp.target = target
  arrived : s.ramp.rampEn = false → s.ramp.curFreq = target

/-- An armed ramp has a SERVICE to go: its period is not used up (10_state.md R33). -/
theorem RampToward.ended {target : Word} {s : State} (hs : RampToward target s) (h : servicesLeft s = 0) :
    s.ramp.curFreq = target ∧ s.ramp.rampEn = false := by
  cases hon : s.ramp.rampEn with
  | false => exact ⟨hs.arrived hon, rfl⟩
  | true =>
    obtain ⟨-, -, -, -, hacc⟩ := hs.inv.ramping hon
    rw [servicesLeft_of_armed hon] at h
    omega

/-- An adjustment that does not land is at least 1 Hz nearer to the target (42_timer_sequencer.md R121). -/
theorem absDiff_adjustedFrequency {s : State} (hi : Inv s) (hon : s.ramp.rampEn = true)
    (hfull : s.ramp.periodTicks.toNat ≤ accumulated s) (hne : adjustedFrequency s ≠ s.ramp.target.toNat) :
    absDiff (adjustedFrequency s) s.ramp.target.toNat + 1 ≤ absDiff s.ramp.curFreq.toNat s.ramp.target.toNat := by
  obtain ⟨-, hstep, hperiod, -, -⟩ := hi.ramping hon
  have hmoves := adjustedFrequency_moves hperiod hfull
  have hbetween := adjustedFrequency_between s
  unfold absDiff
  omega

/-- Each SERVICE brings the ramp's end nearer: it accumulates at least 1, or it spends a period and moves at least 1 Hz
(42_timer_sequencer.md R121). -/
theorem servicesLeft_stepService {s t : State} (hi : Inv s) (h : stepService s = .next t) :
    servicesLeft t ≤ servicesLeft s - 1 := by
  obtain ⟨-, hmatch, -⟩ := hi.pendingMatch (stepService_ready_of_next h).1
  have hword := s.ramp.periodTicks.isLt
  have hacc : accumulated s = s.ramp.accTicks.toNat + s.timer.matchCmp.toNat := rfl
  obtain ⟨ovf, ⟨hoff, hramp⟩ | ⟨hon, hshort, hramp⟩ | ⟨hon, hfull, hramp⟩⟩ := stepService_ramp hi h
  · simp [servicesLeft, hramp, hoff]
  · have hread : (BitVec.ofNat 32 (accumulated s)).toNat = accumulated s := toNat_ofNat_of_lt (by omega)
    simp only [servicesLeft, hramp, hon, if_true, hread]
    omega
  · obtain ⟨-, -, -, -, hremainder⟩ := hi.ramping hon
    by_cases hdone : adjustedFrequency s = s.ramp.target.toNat
    · simp [servicesLeft, hramp, hdone]
    · have hnearer := Nat.mul_le_mul_left s.ramp.periodTicks.toNat (absDiff_adjustedFrequency hi hon hfull hdone)
      simp only [servicesLeft, hramp, hon, toNat_ofNat_of_lt (adjustedFrequency_lt s), ne_eq, hdone, not_false_eq_true,
        decide_true, if_true]
      rw [Nat.mul_succ] at hnearer
      omega

/-- An internal step leaves the ramp on its way, or ended at its target. -/
theorem RampToward.step {target : Word} {a : AgentStep} {s t : State} (hs : RampToward target s) (ha : Internal a)
    (h : agentStep a s = .next t) : RampToward target t := by
  have hinv := agentStep_inv hs.inv h
  obtain rfl | rfl := ha
  · obtain ⟨-, -, rfl⟩ := stepTick_next.1 h
    exact ⟨hinv, hs.target_eq, hs.arrived⟩
  · obtain ⟨ovf, ⟨hoff, hramp⟩ | ⟨hon, -, hramp⟩ | ⟨hon, hfull, hramp⟩⟩ := stepService_ramp hs.inv h
    · exact ⟨hinv, by rw [hramp]; exact hs.target_eq, fun _ => by rw [hramp]; exact hs.arrived hoff⟩
    · exact ⟨hinv, by rw [hramp]; exact hs.target_eq, fun hoff => by simp [hramp, hon] at hoff⟩
    · obtain ⟨htarget, -, -, -, hends⟩ := rampNeverOvershoots s t hs.inv h hon
      exact ⟨hinv, htarget.trans hs.target_eq, fun hoff => ((hends hfull).2 hoff).trans hs.target_eq⟩

theorem servicesLeft_step {a : AgentStep} {s t : State} (hi : Inv s) (ha : Internal a) (h : agentStep a s = .next t) :
    servicesLeft t ≤ servicesLeft s - [a].count .service := by
  obtain rfl | rfl := ha
  · obtain ⟨-, -, rfl⟩ := stepTick_next.1 h
    exact le_rfl
  · exact servicesLeft_stepService hi h

theorem andThen_next {r : Result} {f : State → Result} {t : State} :
    andThen r f = .next t ↔ ∃ u, r = .next u ∧ f u = .next t := by
  cases r <;> simp [andThen]

theorem RampToward.runSteps {target : Word} {run : List AgentStep} {s t : State} (hs : RampToward target s)
    (hrun : ∀ a ∈ run, Internal a) (h : runSteps run s = .next t) :
    RampToward target t ∧ servicesLeft t ≤ servicesLeft s - run.count .service := by
  induction run generalizing s with
  | nil =>
    cases h
    exact ⟨hs, le_rfl⟩
  | cons a run ih =>
    obtain ⟨u, ha, hrest⟩ := andThen_next.1 h
    have hinternal := hrun a List.mem_cons_self
    obtain ⟨ht, hleft⟩ := ih (hs.step hinternal ha) (fun b hb => hrun b (List.mem_cons_of_mem a hb)) hrest
    have hfirst := servicesLeft_step hs.inv hinternal ha
    have hcount : (a :: run).count .service = [a].count .service + run.count .service :=
      List.count_append (l₁ := [a])
    exact ⟨ht, by omega⟩

/-- Settles O36: the bound is at least the SERVICE steps left, and each SERVICE of the run takes one off. -/
theorem rampReachesTheTargetInBoundedServices : Obligations.RampReachesTheTargetInBoundedServices := by
  intro s t run hi hon hrun h hcount
  have hstart : RampToward s.ramp.target s := ⟨hi, rfl, fun hoff => by simp [hon] at hoff⟩
  obtain ⟨ht, hleft⟩ := hstart.runSteps hrun h
  refine ht.ended ?_
  rw [servicesLeft_of_armed hon] at hleft
  rw [Nat.mul_succ] at hcount
  omega

/-! ## Fair runs -/

/-- An internal step of a running timer, not halted, leaves it so: SERVICE does not trap (42_timer_sequencer.md R118). -/
theorem tickReady_step {a : AgentStep} {s t : State} (hi : Inv s) (ha : Internal a) (h : agentStep a s = .next t)
    (hready : TickReady s) : TickReady t := by
  obtain ⟨hrun, h0⟩ := hready
  obtain rfl | rfl := ha
  · have hafter := afterTicks_of_stepTick hi h
    exact ⟨hafter.running, hafter.fault ▸ h0⟩
  · obtain ⟨u, hu, -, hfault⟩ := stepService_of_inv hi (stepService_ready_of_next h)
    cases hu.symm.trans h
    obtain ⟨-, -, hkept⟩ := interruptEnableEqualsRunning.2 .service s t h
    exact ⟨(hkept (.inr (by simp [Issues]))).2.trans hrun, hfault ▸ h0⟩

section FairRun

variable {states : Nat → State} {agents : Nat → AgentStep}

/-- What every internal step keeps holds along a run of internal steps. -/
theorem IsRun.keeps {P : State → Prop} (hrun : IsRun states agents) (hinternal : ∀ n, Internal (agents n))
    (hstep : ∀ {a s t}, Internal a → agentStep a s = .next t → P s → P t) (h0 : P (states 0)) (n : Nat) :
    P (states n) := by
  induction n with
  | zero => exact h0
  | succ n ih => exact hstep (hinternal n) (hrun n) ih

/-- Where a run only ticks from some point on, the compare match comes: each TICK before it is one fewer to it
(42_timer_sequencer.md R110). -/
theorem exists_pending (hinv : ∀ n, Inv (states n)) {n : Nat}
    (hticks : ∀ m, n ≤ m → stepTick (states m) = .next (states (m + 1))) :
    ∃ m, n ≤ m ∧ (states m).timer.pending = true := by
  induction hd : (states n).timer.ticksToMatch (states n).cfg.compareWidth using Nat.strongRecOn generalizing n with
  | ind d ih =>
    obtain ⟨-, -, hnext⟩ := stepTick_next.1 (hticks n le_rfl)
    by_cases hmatch : (states n).timer.counter = (states n).timer.cmp
    · refine ⟨n + 1, n.le_succ, ?_⟩
      rw [hnext, TimerRegs.tick_match hmatch]
    · have hcloser := TimerRegs.ticksToMatch_tick (hinv n).cmpWidth (hinv n).counterWidth
        ((states n).cfg.two_pow_width.2.trans (by decide)) hmatch
      have hfewer : (states (n + 1)).timer.ticksToMatch (states (n + 1)).cfg.compareWidth < d := by
        rw [hnext, ← hd, ← hcloser]
        exact Nat.lt_succ_self _
      obtain ⟨m, hm, hpending⟩ := ih _ hfewer (fun m hm => hticks m (by omega)) rfl
      exact ⟨m, by omega, hpending⟩

/-- A fair run of internal steps takes a SERVICE after every point: without one it would only tick, and the match leaves SERVICE
enabled (60_exceptions.md R152). -/
theorem exists_service (hrun : IsRun states agents) (hfair : Fair states agents) (hinternal : ∀ n, Internal (agents n))
    (hinv : ∀ n, Inv (states n)) (hready : ∀ n, TickReady (states n)) (n : Nat) :
    ∃ m, n ≤ m ∧ agents m = .service := by
  by_contra hnone
  push Not at hnone
  have hticks : ∀ m, n ≤ m → stepTick (states m) = .next (states (m + 1)) := fun m hm => by
    have hstep := hrun m
    rwa [(hinternal m).resolve_right (hnone m hm)] at hstep
  obtain ⟨m, hm, hpending⟩ := exists_pending hinv hticks
  have hstays : ∀ k, m ≤ k → (states k).timer.pending = true := fun k hk => by
    induction k, hk using Nat.le_induction with
    | base => exact hpending
    | succ k hk ih =>
      obtain ⟨-, -, hnext⟩ := stepTick_next.1 (hticks k (hm.trans hk))
      rw [hnext]
      exact TimerRegs.tick_pending ih
  obtain ⟨k, hk, hservice⟩ := hfair.service m fun k hk =>
    ⟨hstays k hk, (hinv k).ieRunning.trans (hready k).1, (hready k).2⟩
  exact hnone k (hm.trans hk) hservice

end FairRun

/-- Settles O37: the SERVICE steps left never increase and drop at each SERVICE, and a SERVICE always comes; so their least value
along the run is 0. -/
theorem fairRunsReachTheRampTarget : Obligations.FairRunsReachTheRampTarget := by
  intro states agents hrun hfair hinv h0 hrunning hon hinternal
  have hstart : RampToward (states 0).ramp.target (states 0) := ⟨hinv, rfl, fun hoff => by simp [hon] at hoff⟩
  have htoward := hrun.keeps hinternal (fun ha h hs => hs.step ha h) hstart
  have hready : ∀ n, TickReady (states n) := fun n =>
    (hrun.keeps (P := fun s => Inv s ∧ TickReady s) hinternal
      (fun ha h ⟨hi, hs⟩ => ⟨agentStep_inv hi h, tickReady_step hi ha h hs⟩) ⟨hinv, hrunning, h0⟩ n).2
  have hleft (n : Nat) := servicesLeft_step (htoward n).inv (hinternal n) (hrun n)
  have hanti : Antitone fun n => servicesLeft (states n) :=
    antitone_nat_of_succ_le fun n => (hleft n).trans (Nat.sub_le ..)
  obtain ⟨least, hmin⟩ : ∃ n, ∀ m, servicesLeft (states n) ≤ servicesLeft (states m) :=
    ⟨_, fun m => Function.argmin_le (fun n => servicesLeft (states n)) m⟩
  refine ⟨least, (htoward least).ended ?_⟩
  obtain ⟨m, hm, hservice⟩ := exists_service hrun hfair hinternal (fun n => (htoward n).inv) hready least
  have hafter : servicesLeft (states m) ≤ servicesLeft (states least) := hanti hm
  have hnotless := hmin (m + 1)
  have hdrop : servicesLeft (states (m + 1)) ≤ servicesLeft (states m) - 1 := by
    simpa [hservice] using hleft m
  omega

end Sys2Proof.Machine
end

section
/-! The overrun count from the SERVICE that records an overrun to the POP_OVF that answers it, and after
(42_timer_sequencer.md R115, R123). -/

namespace Sys2Proof.Machine

/-- A SERVICE that does not trap counts in `OVF_TICKS` how far `COUNTER` is past the `CMP` it leaves; one that traps keeps the count
(42_timer_sequencer.md R115, R116). -/
theorem stepService_ovfTicks {s t : State} (h : stepService s = .next t) :
    t.ramp.ovfTicks = countedOverrun s t.timer.cmp.toNat ∨ (t.fault.halted = true ∧ t.ramp.ovfTicks = s.ramp.ovfTicks) := by
  obtain ⟨-, ⟨-, rfl⟩ | ⟨-, -, rfl⟩ | ⟨-, -, -, c, -, rfl⟩ | ⟨-, -, -, -, rfl⟩⟩ := stepService_next h
  · exact .inl (by rw [correctOverrun_eq]; rfl)
  · exact .inl (by rw [correctOverrun_eq]; rfl)
  · exact .inl (by rw [correctOverrun_eq]; rfl)
  · exact .inr ⟨rfl, rfl⟩

/-- Without an overrun the count is kept: it has 32 bits already. -/
theorem countedOverrun_of_le {s : State} {cmp : Nat} (h : s.timer.counter.toNat ≤ cmp) :
    countedOverrun s cmp = s.ramp.ovfTicks := by
  have hword := s.ramp.ovfTicks.isLt
  rw [countedOverrun, Nat.sub_eq_zero_of_le h, Nat.add_zero, Nat.min_eq_left (by omega), BitVec.ofNat_toNat,
    BitVec.setWidth_eq]

/-- Counted from 0, an overrun is in `OVF_TICKS` as it is: it does not saturate. -/
theorem countedOverrun_of_zero {s : State} {cmp : Nat} (h : s.ramp.ovfTicks = 0) :
    countedOverrun s cmp = BitVec.ofNat 32 (s.timer.counter.toNat - cmp) := by
  have hword := s.timer.counter.isLt
  have hzero : s.ramp.ovfTicks.toNat = 0 := by rw [h]; rfl
  rw [countedOverrun, hzero, Nat.zero_add, Nat.min_eq_left (by omega)]

/-- What a step that records no overrun can do to `OVF_TICKS`: keep it, or clear it by POP_OVF or RESET (10_state.md R24). -/
theorem agentStep_ovfTicks {a : AgentStep} {s t : State} (h : agentStep a s = .next t)
    (hno : a = .service → s.timer.counter.toNat ≤ t.timer.cmp.toNat) :
    t.ramp.ovfTicks = s.ramp.ovfTicks ∨ (t.ramp.ovfTicks = 0 ∧ (a = .reset ∨ Issues a .popOvf)) := by
  by_cases hreset : a = .reset
  · rw [hreset] at h
    cases h
    exact .inr ⟨rfl, .inl hreset⟩
  by_cases hkept : t.ramp.ovfTicks = s.ramp.ovfTicks
  · exact .inl hkept
  obtain ⟨-, -, -, -, hlisted, -⟩ := fieldsChangeOnlyWhereListed a s t h hreset
  obtain rfl | hpop := hlisted hkept
  · obtain hcounted | ⟨-, hsame⟩ := stepService_ovfTicks h
    · exact .inl (hcounted.trans (countedOverrun_of_le (hno rfl)))
    · exact .inl hsame
  · rw [agentStep_of_issues hpop] at h
    obtain ⟨-, rfl⟩ := execPopOvf_next h
    exact .inr ⟨rfl, .inr hpop⟩

/-- Over a run that records no overrun `OVF_TICKS` is kept, or some POP_OVF or RESET cleared it. -/
theorem NoOverrunRun.ovfTicks {run : List AgentStep} {s t : State} (h : NoOverrunRun run s t) :
    t.ramp.ovfTicks = s.ramp.ovfTicks ∨ (t.ramp.ovfTicks = 0 ∧ ∃ a ∈ run, a = .reset ∨ Issues a .popOvf) := by
  induction run generalizing s with
  | nil =>
    cases h
    exact .inl rfl
  | cons a run ih =>
    obtain ⟨u, ha, hno, hrest⟩ := h
    obtain hkept | ⟨hzero, b, hb, hclears⟩ := ih hrest
    · rw [hkept]
      exact (agentStep_ovfTicks ha hno).imp_right fun ⟨hzero, hclears⟩ => ⟨hzero, a, List.mem_cons_self, hclears⟩
    · exact .inr ⟨hzero, b, List.mem_cons_of_mem a hb, hclears⟩

/-- Settles O38: no step between clears the count the SERVICE made, so POP_OVF answers it and clears it; after that every step keeps
it at 0. -/
theorem overrunIsReportedOnce : Obligations.OverrunIsReportedOnce := by
  intro s t h ht hzero between u hbetween hrun hu
  have hcounted : t.ramp.ovfTicks = BitVec.ofNat 32 (s.timer.counter.toNat - t.timer.cmp.toNat) := by
    obtain hcounted | ⟨htrap, -⟩ := stepService_ovfTicks h
    · exact hcounted.trans (countedOverrun_of_zero hzero)
    · simp [ht] at htrap
  have hkept : u.ramp.ovfTicks = t.ramp.ovfTicks := by
    obtain hkept | ⟨-, a, ha, hclears⟩ := hrun.ovfTicks
    · exact hkept
    · exact absurd hclears (not_or.2 (hbetween a ha))
  refine ⟨_, popOvfReadsAndClears.2 u hu, ?_, fun later w hlater hw => ⟨_, popOvfReadsAndClears.2 w hw, ?_⟩⟩
  · rw [hkept, hcounted]
  · obtain hstays | ⟨hcleared, -⟩ := hlater.ovfTicks
    · rw [hstays]
    · rw [hcleared]

end Sys2Proof.Machine
end

section
/-! One sample through the pipeline (43_sensor_filter.md R130 to R137): the ring that one FILTER_READ leaves, said once as a function
of the ring before it, and the two filter commands by it. -/

namespace Sys2Proof.Machine

/-- The ring with a sample in the slot of `HIST_IDX[k]` and the index advanced (43_sensor_filter.md R132). -/
def FilterState.inserted (p : FilterParams) (f : FilterState) (v : Sample) : FilterState :=
  { f with
    hist := f.hist.set f.histIdx.toNat v
    histIdx := BitVec.ofNat 16 ((f.histIdx.toNat + 1) % p.capacity) }

/-- The filter after one FILTER_READ: the sample is inserted, and the mean passes the gate (43_sensor_filter.md R132 to R134). -/
def FilterState.afterRead (p : FilterParams) (f : FilterState) (v : Sample) : FilterState :=
  hysteresisGate p (historyMean p (f.inserted p v).hist) (f.inserted p v)

theorem insertSample_eq_inserted {p : FilterParams} {f : FilterState} {v : Sample} (hlen : f.hist.length = p.capacity)
    (hidx : f.histIdx.toNat < p.capacity) : insertSample p v f = some (f.inserted p v) :=
  insertSample_some.2 ⟨hlen, hidx, rfl⟩

@[simp] theorem FilterState.afterRead_hist (p : FilterParams) (f : FilterState) (v : Sample) :
    (f.afterRead p v).hist = f.hist.set f.histIdx.toNat v := hysteresisGate_hist ..

@[simp] theorem FilterState.afterRead_histIdx (p : FilterParams) (f : FilterState) (v : Sample) :
    (f.afterRead p v).histIdx = BitVec.ofNat 16 ((f.histIdx.toNat + 1) % p.capacity) := hysteresisGate_histIdx ..

/-- A read keeps the form of the ring (20_memory.md R45). -/
theorem FilterState.afterRead_wf {c : Config} {p : FilterParams} {f : FilterState} {v : Sample} (hp : p ∈ c.filters)
    (hf : f.wf c.sampleWidth p = true) (hv : v.toNat < 2 ^ c.sampleWidth) :
    (f.afterRead p v).wf c.sampleWidth p = true := by
  obtain ⟨hlen, hidx, -, -⟩ := FilterState.wf_iff.1 hf
  obtain ⟨g, hg, hgw⟩ := insertSample_wf hp hf hv
  obtain rfl : f.inserted p v = g := Option.some.inj ((insertSample_eq_inserted hlen hidx).symm.trans hg)
  obtain ⟨hglen, -, -, hghist⟩ := FilterState.wf_iff.1 hgw
  exact hysteresisGate_wf hgw (historyMean_lt (Config.filter_legal hp).1 hglen hghist)

/-- FILTER_READ of a ring of its capacity with its index within (43_sensor_filter.md R130). -/
theorem execFilterRead_eq_afterRead {k : Channel} {w : Word} {s : State} {p : FilterParams} {f : FilterState}
    (h0 : s.fault.halted = false) (hp : s.cfg.filters[k.toNat]? = some p) (hw : w.toNat < 2 ^ s.cfg.sampleWidth)
    (hf : s.filters[k.toNat]? = some f) (hlen : f.hist.length = p.capacity) (hidx : f.histIdx.toNat < p.capacity) :
    execFilterRead k w s = .next ((s.setFilter k.toNat (f.afterRead p (w.setWidth 16))).responding
      (BitVec.ofNat 32 (outputOf s.cfg p (f.afterRead p (w.setWidth 16)).sticky.toNat)) true) :=
  execFilterRead_of_wf h0 hp hw hf (insertSample_eq_inserted hlen hidx)

/-- The gate's comparison over the integers (00_scope.md R13, 43_sensor_filter.md R134). -/
theorem lt_absDiff_iff {n a b : Nat} : n < absDiff a b ↔ (n : Int) < |(a : Int) - (b : Int)| := by
  rw [absDiff, ← Int.natCast_natAbs, Int.ofNat_lt]

/-- The mean of any full ring fits a sample's 16 bits (43_sensor_filter.md R133). -/
theorem historyMean_lt_sample {p : FilterParams} {hist : List Sample} (hcap : 1 ≤ p.capacity)
    (hlen : hist.length = p.capacity) : historyMean p hist < 2 ^ 16 :=
  Nat.lt_succ_of_le (historyMean_between (b := 2 ^ 16 - 1) hcap hlen (fun _ _ => Nat.zero_le _)
    fun v _ => Nat.le_sub_one_of_lt v.isLt).2

/-- `STICKY[k]` after a read: the mean exactly if the two differ by more than `STICKY_RANGE[k]` (43_sensor_filter.md R134). -/
theorem FilterState.afterRead_sticky {p : FilterParams} {f : FilterState} {v : Sample}
    (hlen : f.hist.length = p.capacity) (hidx : f.histIdx.toNat < p.capacity) :
    (f.afterRead p v).sticky.toNat =
      if (p.stickyRange : Int) < |(historyMean p (f.hist.set f.histIdx.toNat v) : Int) - (f.sticky.toNat : Int)|
      then historyMean p (f.hist.set f.histIdx.toNat v) else f.sticky.toNat := by
  have hmean := historyMean_lt_sample (p := p) (hist := f.hist.set f.histIdx.toNat v) (by omega)
    (by rw [List.length_set, hlen])
  simp only [← lt_absDiff_iff]
  exact hysteresisGate_sticky p (f.inserted p v) hmean

/-- Settles O40: the operands fail their checks and the command traps, or the ring takes the sample; its three fields and the answer
are then those of the pipeline, the mean fitting `STICKY[k]`. -/
theorem filterReadRunsThePipeline : Obligations.FilterReadRunsThePipeline := by
  refine ⟨fun _ _ _ => (decodeReadsExactlyTheEncoding _ _).2 ⟨rfl, rfl⟩, fun s k v h0 => ⟨fun hbad => ?_, ?_⟩⟩
  · exact exec_of_not_wf h0 (decide_eq_false hbad)
  · intro p f hp hf hlen hidx hv hist mean sticky
    have hsticky : (f.afterRead p (v.setWidth 16)).sticky.toNat = sticky := FilterState.afterRead_sticky hlen hidx
    have hread : f.afterRead p (v.setWidth 16) =
        { hist := hist
          histIdx := BitVec.ofNat 16 ((f.histIdx.toNat + 1) % p.capacity)
          sticky := BitVec.ofNat 16 sticky } := by
      rw [← FilterState.afterRead_histIdx p f (v.setWidth 16), ← hsticky, BitVec.ofNat_toNat, BitVec.setWidth_eq]
      simp only [hist, ← FilterState.afterRead_hist p f (v.setWidth 16)]
    show execFilterRead k v s = _
    rw [execFilterRead_eq_afterRead h0 hp hv hf hlen hidx, hsticky, hread]
    rfl

/-- Settles O41: the operands fail their checks and the command traps, or the filter is seeded; RESET is a seed of 0. -/
theorem filterInitSeedsOneFilter : Obligations.FilterInitSeedsOneFilter := by
  refine ⟨fun _ _ _ => (decodeReadsExactlyTheEncoding _ _).2 ⟨rfl, rfl⟩,
    fun s k v h0 => ⟨fun hbad => ?_, fun p hp hk hv => ⟨?_, ?_⟩⟩⟩
  · exact exec_of_not_wf h0 (decide_eq_false hbad)
  · exact execFilterInit_of_wf h0 hp hv (List.getElem?_eq_getElem hk)
  · rintro rfl
    rw [State.powerUp_filters, List.getElem?_map, hp]
    rfl

/-- Settles O42: a memory of its form has the ring, and setting one filter and answering keep the fault state and the trace. -/
theorem filterReadHasNoErrorPath : Obligations.FilterReadHasNoErrorPath := by
  intro s k v h0 hm hk hv
  have hp : s.cfg.filters[k.toNat]? = some s.cfg.filters[k.toNat] := List.getElem?_eq_getElem hk
  obtain ⟨f, hf, hfw⟩ := Memory.wf_get hm hp
  obtain ⟨hlen, hidx, -, -⟩ := FilterState.wf_iff.1 hfw
  exact ⟨_, _, execFilterRead_eq_afterRead h0 hp hv hf hlen hidx, rfl, rfl, rfl⟩

end Sys2Proof.Machine
end

section
/-! The stages of the pipeline as functions of numbers: the mean fits its accumulator, and the clamp and the remap rise from one end of
the output range to the other (43_sensor_filter.md R133, R135, R136, R138 (d)). -/

namespace Sys2Proof.Machine

/-- Settles O43: a sum of entries below `2^SW` is bounded by their number, at most 65536 in a legal configuration. -/
theorem historyMeanFits : Obligations.HistoryMeanFits := by
  intro c p hist hp hlen hhist
  obtain ⟨hcap, hcapMax, -, -, -⟩ := Config.filter_legal hp
  have hsum := sum_le_of_lt (b := 2 ^ c.sampleWidth) (hist.map BitVec.toNat) (by simpa using hhist)
  rw [List.length_map, hlen] at hsum
  have hbound : p.capacity * (2 ^ c.sampleWidth - 1) ≤ 65536 * 65535 :=
    Nat.mul_le_mul hcapMax (Nat.sub_le_sub_right c.two_pow_sample.2 1)
  exact ⟨rfl, hsum, by omega, historyMean_lt hcap hlen hhist⟩

theorem clampValue_mono (p : FilterParams) {v w : Nat} (h : v ≤ w) : clampValue p v ≤ clampValue p w := by
  unfold clampValue
  omega

theorem clampValue_of_le {p : FilterParams} {v : Nat} (hp : p.minClamp < p.maxClamp) (h : v ≤ p.minClamp) :
    clampValue p v = p.minClamp := by
  unfold clampValue
  omega

theorem clampValue_of_ge {p : FilterParams} {v : Nat} (h : p.maxClamp ≤ v) : clampValue p v = p.maxClamp := by
  unfold clampValue
  omega

theorem remap_mono (c : Config) (p : FilterParams) {v w : Nat} (h : v ≤ w) : remap c p v ≤ remap c p w :=
  Nat.add_le_add_left (Nat.div_le_div_right (Nat.mul_le_mul_right _ (Nat.sub_le_sub_right h _))) _

@[simp] theorem remap_minClamp (c : Config) (p : FilterParams) : remap c p p.minClamp = c.minOutput := by
  simp [remap]

theorem remap_maxClamp (c : Config) {p : FilterParams} (hp : p.minClamp < p.maxClamp) :
    remap c p p.maxClamp = c.maxOutput := by
  rw [remap, Nat.mul_div_cancel_left _ (Nat.sub_pos_of_lt hp), Nat.add_sub_cancel' c.minOutput_le]

/-- Settles O44: the clamp leads into the window, whose ends the remap takes to the ends of the output range; both rise; and both
factors of the product have 32 bits. -/
theorem remapCoversTheOutputRange : Obligations.RemapCoversTheOutputRange := by
  intro c p hp v w out
  obtain ⟨-, -, -, hclamp, hmaxClamp⟩ := Config.filter_legal hp
  have hmaxOutput := c.maxOutput_lt
  have hle := (clampValue_mem hclamp v).2
  obtain ⟨hlow, hhigh⟩ := remap_mem (c := c) hclamp hle
  refine ⟨hlow, hhigh, fun h => remap_mono c p (clampValue_mono p h), fun h => ?_, fun h => ?_, ?_⟩
  · show remap c p (clampValue p v) = c.minOutput
    rw [clampValue_of_le hclamp h, remap_minClamp]
  · show remap c p (clampValue p v) = c.maxOutput
    rw [clampValue_of_ge h, remap_maxClamp c hclamp]
  · have hproduct : (clampValue p v - p.minClamp) * (c.maxOutput - c.minOutput) < 2 ^ 32 * 2 ^ 32 :=
      Nat.mul_lt_mul'' (by omega) (by omega)
    omega

end Sys2Proof.Machine
end

section
/-! A sequence of reads of one filter (43_sensor_filter.md R138 (a), (b)): the run on the block is the fold of single reads over the
samples, and the ring read from its oldest entry is a queue. -/

namespace Sys2Proof.Machine

/-- FILTER_READ commands with good operands run to the end, and their filter goes through the samples one by one. -/
theorem runSteps_readsOf {k : Channel} {p : FilterParams} {samples : List Word} {s : State} {f : FilterState}
    (h0 : s.fault.halted = false) (hp : s.cfg.filters[k.toNat]? = some p) (hf : s.filters[k.toNat]? = some f)
    (hfw : f.wf s.cfg.sampleWidth p = true) (hsamples : ∀ w ∈ samples, w.toNat < 2 ^ s.cfg.sampleWidth) :
    ∃ t, runSteps (readsOf k samples) s = .next t ∧
      t.filters[k.toNat]? = some ((samples.map (·.setWidth 16)).foldl (FilterState.afterRead p) f) := by
  induction samples generalizing s f with
  | nil => exact ⟨s, rfl, hf⟩
  | cons w samples ih =>
    obtain ⟨hlen, hidx, -, -⟩ := FilterState.wf_iff.1 hfw
    obtain ⟨hw, hrest⟩ := List.forall_mem_cons.1 hsamples
    have hk := (List.getElem?_eq_some_iff.1 hf).1
    have hread : agentStep (.host (encode (.filterRead k w))) s = _ :=
      (agentStep_of_issues (issues_host_iff.2 (decodeOfEncodeIsTheCommand _)) s).trans
        (execFilterRead_eq_afterRead h0 hp hw hf hlen hidx)
    have hkept := FilterState.afterRead_wf (v := w.setWidth 16) (List.mem_of_getElem? hp) hfw (by rwa [sample_toNat hw])
    obtain ⟨t, ht, hft⟩ := ih (s := (s.setFilter k.toNat (f.afterRead p (w.setWidth 16))).responding _ _)
      h0 hp (List.getElem?_set_self hk) hkept hrest
    exact ⟨t, andThen_next.2 ⟨_, hread, ht⟩, hft⟩

/-- The entries of a ring, the one to be overwritten next first (43_sensor_filter.md R132). -/
def FilterState.oldestFirst (f : FilterState) : List Sample := f.hist.rotate f.histIdx.toNat

/-- Overwriting a list at the index it is rotated to, and rotating one further, drops the first entry and adds one at the end. -/
theorem rotate_set_succ {α : Type} {l : List α} {i : Nat} (h : i < l.length) (v : α) :
    (l.set i v).rotate (i + 1) = (l.rotate i ++ [v]).tail := by
  have hrotate := List.rotate_append_length_eq (l.take i ++ [v]) (l.drop (i + 1))
  have hfront : (l.take i ++ [v]).length = i + 1 := by simp [Nat.min_eq_left h.le]
  have hsplit : l.set i v = (l.take i ++ [v]) ++ l.drop (i + 1) := by
    rw [List.set_eq_take_append_cons_drop, if_pos h, List.append_cons]
  rw [hfront] at hrotate
  rw [hsplit, hrotate, List.rotate_eq_drop_append_take h.le, List.drop_eq_getElem_cons h, List.cons_append,
    List.cons_append, List.tail_cons, List.append_assoc]

/-- A read takes the oldest entry out and the sample in (43_sensor_filter.md R132). -/
theorem FilterState.oldestFirst_afterRead {p : FilterParams} {f : FilterState} {v : Sample}
    (hlen : f.hist.length = p.capacity) (hidx : f.histIdx.toNat < p.capacity) (hcap : p.capacity ≤ 65536) :
    (f.afterRead p v).oldestFirst = (f.oldestFirst ++ [v]).tail := by
  rw [oldestFirst, afterRead_hist, afterRead_histIdx, nextIndex_toNat (by omega) hcap, ← hlen]
  have hmod := List.rotate_mod (f.hist.set f.histIdx.toNat v) (f.histIdx.toNat + 1)
  rw [List.length_set] at hmod
  rw [hmod, rotate_set_succ (hlen ▸ hidx), oldestFirst]

/-- After any number of reads the ring holds the last of the old entries and the samples. -/
theorem FilterState.oldestFirst_foldl_afterRead {c : Config} {p : FilterParams} {samples : List Sample} {f : FilterState}
    (hp : p ∈ c.filters) (hfw : f.wf c.sampleWidth p = true) (hsamples : ∀ v ∈ samples, v.toNat < 2 ^ c.sampleWidth) :
    (samples.foldl (FilterState.afterRead p) f).oldestFirst = (f.oldestFirst ++ samples).drop samples.length := by
  induction samples generalizing f with
  | nil => simp
  | cons v samples ih =>
    obtain ⟨hlen, hidx, -, -⟩ := FilterState.wf_iff.1 hfw
    obtain ⟨hv, hrest⟩ := List.forall_mem_cons.1 hsamples
    have hcap := (Config.filter_legal hp).2.1
    calc (samples.foldl (FilterState.afterRead p) (f.afterRead p v)).oldestFirst
        = ((f.oldestFirst ++ [v]).tail ++ samples).drop samples.length := by
          rw [ih (afterRead_wf hp hfw hv) hrest, oldestFirst_afterRead hlen hidx hcap]
      _ = (f.oldestFirst ++ v :: samples).drop (samples.length + 1) := by
          rw [← List.tail_append_of_ne_nil (by simp), List.drop_tail, ← List.append_cons]

/-- At least as many reads of one value as the ring has entries leave it in every entry (43_sensor_filter.md R138 (a)). -/
theorem FilterState.hist_foldl_afterRead_replicate {c : Config} {p : FilterParams} {f : FilterState} {v : Sample} {n : Nat}
    (hp : p ∈ c.filters) (hfw : f.wf c.sampleWidth p = true) (hv : v.toNat < 2 ^ c.sampleWidth) (hn : p.capacity ≤ n) :
    ((List.replicate n v).foldl (FilterState.afterRead p) f).hist = List.replicate p.capacity v := by
  obtain ⟨hlen, -, -, -⟩ := FilterState.wf_iff.1 hfw
  have hqueue := oldestFirst_foldl_afterRead hp hfw (samples := List.replicate n v)
    fun x hx => List.eq_of_mem_replicate hx ▸ hv
  have hold : f.oldestFirst.length = p.capacity := (List.length_rotate ..).trans hlen
  have hall : (f.oldestFirst ++ List.replicate n v).drop n = List.replicate p.capacity v := by
    rw [List.drop_append, List.drop_eq_nil_of_le (hold ▸ hn), hold, List.drop_replicate, Nat.sub_sub_self hn,
      List.nil_append]
  rw [List.length_replicate, hall, oldestFirst, List.rotate_eq_iff, List.rotate_replicate] at hqueue
  exact hqueue

theorem historyMean_replicate {p : FilterParams} (hcap : 1 ≤ p.capacity) (v : Sample) :
    historyMean p (List.replicate p.capacity v) = v.toNat := by
  simp [historyMean, Nat.mul_div_cancel_left _ hcap]

/-- Settles O45: the run is the fold of the reads, which leaves the value in every entry. -/
theorem constantSamplesGiveTheirMean : Obligations.ConstantSamplesGiveTheirMean := by
  intro s k p v n h0 hm hp hv hn
  obtain ⟨f, hf, hfw⟩ := Memory.wf_get hm hp
  have hmem := List.mem_of_getElem? hp
  have hsample := sample_toNat hv
  obtain ⟨t, ht, hft⟩ := runSteps_readsOf h0 hp hf hfw (samples := List.replicate n v)
    fun w hw => List.eq_of_mem_replicate hw ▸ hv
  rw [List.map_replicate] at hft
  have hhist := FilterState.hist_foldl_afterRead_replicate hmem hfw (v := v.setWidth 16) (by rwa [hsample]) hn
  refine ⟨t, _, ht, hft, hhist, ?_⟩
  rw [hhist, historyMean_replicate (Config.filter_legal hmem).1, hsample]

/-- A ring of its capacity whose entries are `a` or `b`, with `STICKY[k]` at `a`. -/
structure HoldsOnly (p : FilterParams) (a b : Sample) (f : FilterState) : Prop where
  length : f.hist.length = p.capacity
  index : f.histIdx.toNat < p.capacity
  entries : ∀ v ∈ f.hist, v = a ∨ v = b
  sticky : f.sticky = a

/-- Reading `a` or `b` keeps such a ring: the mean is between the two, so it is not far enough from `a` for the gate
(43_sensor_filter.md R133, R134). -/
theorem HoldsOnly.afterRead {p : FilterParams} {a b v : Sample} {f : FilterState} (h : HoldsOnly p a b f)
    (hcap : p.capacity ≤ 65536) (hclose : |(a.toNat : Int) - (b.toNat : Int)| < (p.stickyRange : Int))
    (hv : v = a ∨ v = b) : HoldsOnly p a b (f.afterRead p v) := by
  have hpos : 1 ≤ p.capacity := Nat.one_le_of_lt h.index
  have hlen : (f.hist.set f.histIdx.toNat v).length = p.capacity := by rw [List.length_set, h.length]
  have hentries : ∀ x ∈ f.hist.set f.histIdx.toNat v, x = a ∨ x = b := fun x hx =>
    (List.mem_or_eq_of_mem_set hx).elim (h.entries x) fun hxv => hxv ▸ hv
  have hbetween := historyMean_between (a := min a.toNat b.toNat) (b := max a.toNat b.toNat) hpos hlen
    (fun x hx => by obtain rfl | rfl := hentries x hx <;> omega)
    (fun x hx => by obtain rfl | rfl := hentries x hx <;> omega)
  have hshut : ¬ (p.stickyRange : Int) <
      |(historyMean p (f.hist.set f.histIdx.toNat v) : Int) - (f.sticky.toNat : Int)| := by
    rw [abs_lt] at hclose
    rw [h.sticky, not_lt, abs_le]
    omega
  refine ⟨by rw [FilterState.afterRead_hist, hlen], ?_, by rwa [FilterState.afterRead_hist], ?_⟩
  · rw [FilterState.afterRead_histIdx, nextIndex_toNat hpos hcap]
    exact Nat.mod_lt _ hpos
  · apply BitVec.eq_of_toNat_eq
    rw [FilterState.afterRead_sticky h.length h.index, if_neg hshut, h.sticky]

theorem HoldsOnly.foldl_afterRead {p : FilterParams} {a b : Sample} {f : FilterState} {samples : List Sample}
    (h : HoldsOnly p a b f) (hcap : p.capacity ≤ 65536)
    (hclose : |(a.toNat : Int) - (b.toNat : Int)| < (p.stickyRange : Int)) (hsamples : ∀ v ∈ samples, v = a ∨ v = b) :
    HoldsOnly p a b (samples.foldl (FilterState.afterRead p) f) :=
  List.foldlRecOn _ _ h fun _ hg v hv => hg.afterRead hcap hclose (hsamples v hv)

/-- Settles O46: FILTER_INIT leaves a ring of `a`s with `STICKY[k]` at `a`, and every read keeps a ring of `a`s and `b`s so. -/
theorem smallAlternationsNeverMoveSticky : Obligations.SmallAlternationsNeverMoveSticky := by
  intro s s1 k p a b samples h0 hp hm ha hb hclose hsamples hinit
  have hmem := List.mem_of_getElem? hp
  obtain ⟨hpos, hcap, -, -, -⟩ := Config.filter_legal hmem
  obtain ⟨f, hf, -⟩ := Memory.wf_get hm hp
  have hk := (List.getElem?_eq_some_iff.1 hf).1
  cases hinit.symm.trans (execFilterInit_of_wf h0 hp ha hf)
  have hseeded : HoldsOnly p (a.setWidth 16) (b.setWidth 16)
      { hist := fillHistory p (a.setWidth 16), histIdx := 0, sticky := a.setWidth 16 } :=
    ⟨List.length_replicate, hpos, fun v hv => .inl (List.eq_of_mem_replicate hv), rfl⟩
  rw [← sample_toNat ha, ← sample_toNat hb] at hclose
  obtain ⟨t, ht, hft⟩ := runSteps_readsOf (samples := samples) (s := (s.setFilter k.toNat _).responding _ _)
    h0 hp (List.getElem?_set_self hk) (seeded_wf hmem (by rwa [sample_toNat ha]))
    fun w hw => by obtain rfl | rfl := hsamples w hw <;> assumption
  have hkept := hseeded.foldl_afterRead hcap hclose (samples := samples.map (·.setWidth 16)) fun v hv => by
    obtain ⟨w, hw, rfl⟩ := List.mem_map.1 hv
    exact (hsamples w hw).imp (congrArg _) (congrArg _)
  exact ⟨t, _, ht, hft, hkept.sticky⟩

end Sys2Proof.Machine
end

section
/-! Traps, the enable of the one interrupt, and the halted state (60_exceptions.md R140 to R150): which command traps with which code,
where SERVICE has a step, and that only RESET has one in a halted block. -/

namespace Sys2Proof.Machine

/-- Operands that name no filter and sample fail the decode checks (30_encoding.md R67 (c), (d)). -/
theorem filterOperandOk_eq_false {c : Config} {k : Channel} {v : Word} (h : filterOperand c k v = none) :
    c.filterOperandOk k v = false :=
  decide_eq_false (filterOperand_none.1 h)

/-- Settles O22: of what each command can do, the cases that are no trap keep the fault state, and each trap has its code. -/
theorem commandsTrapWithTheirCodes : Obligations.CommandsTrapWithTheirCodes := by
  intro i s t h ht
  cases i with
  | start =>
    obtain ⟨h0, ⟨-, rfl⟩ | ⟨c, -, rfl⟩⟩ := execStart_next h
    · exact .inl ⟨.inl rfl, rfl⟩
    · cases h0.symm.trans ht
  | stop =>
    obtain ⟨h0, rfl⟩ := execStop_next h
    cases h0.symm.trans ht
  | setFreq f =>
    obtain ⟨h0, ⟨-, rfl⟩ | ⟨c, -, rfl⟩⟩ := execSetFreq_next h
    · exact .inl ⟨.inr ⟨f, rfl⟩, rfl⟩
    · cases h0.symm.trans ht
  | setRamp f r =>
    obtain ⟨h0, ⟨-, rfl⟩ | ⟨c, -, ⟨-, rfl⟩ | ⟨n, p, -, rfl⟩⟩⟩ := execSetRamp_next h
    · exact .inr (.inl ⟨⟨f, r, rfl⟩, .inl rfl⟩)
    · exact .inr (.inl ⟨⟨f, r, rfl⟩, .inr rfl⟩)
    · cases h0.symm.trans ht
  | getFreq =>
    obtain ⟨h0, rfl⟩ := execGetFreq_next h
    cases h0.symm.trans ht
  | popOvf =>
    obtain ⟨h0, rfl⟩ := execPopOvf_next h
    cases h0.symm.trans ht
  | getStatus =>
    obtain ⟨h0, rfl⟩ := execGetStatus_next h
    cases h0.symm.trans ht
  | filterRead k v =>
    obtain ⟨h0, ⟨hop, rfl⟩ | ⟨_, _, _, _, -, -, -, rfl⟩⟩ := execFilterRead_next h
    · exact .inr (.inr ⟨filterOperandOk_eq_false hop, rfl⟩)
    · cases h0.symm.trans ht
  | filterInit k v =>
    obtain ⟨h0, ⟨hop, rfl⟩ | ⟨_, _, _, -, -, rfl⟩⟩ := execFilterInit_next h
    · exact .inr (.inr ⟨filterOperandOk_eq_false hop, rfl⟩)
    · cases h0.symm.trans ht
  | convPeriod p =>
    obtain ⟨h0, _, _, rfl⟩ := execConvPeriod_next h
    cases h0.symm.trans ht
  | convFreq f =>
    obtain ⟨h0, _, _, rfl⟩ := execConvFreq_next h
    cases h0.symm.trans ht

/-- Settles O33: past its enable SERVICE stops on a zero period alone, which the hypothesis excludes. -/
theorem serviceIsEnabledByPendingAndEnable : Obligations.ServiceIsEnabledByPendingAndEnable := by
  refine fun s hperiod => ⟨fun ⟨_, h⟩ => stepService_ready_of_next h, fun hready => ?_⟩
  have hquotient : advanceRamp (pulse s) ≠ .noPeriod :=
    advanceRamp_ne_noPeriod fun hon => Nat.one_le_iff_ne_zero.2 (hperiod hon)
  rw [stepService_of_ready hready]
  cases hadvance : advanceRamp (pulse s) with
  | done s2 => exact ⟨_, rfl⟩
  | outOfRange => exact ⟨_, rfl⟩
  | noPeriod => exact absurd hadvance hquotient

/-- Settles O52: the gate stops HOST, TICK and SERVICE, and RESET clears `HALTED`. -/
theorem haltedIsLeftOnlyByReset : Obligations.HaltedIsLeftOnlyByReset := fun _ h =>
  ⟨exec_of_halted h, fun _ hne => agentStep_of_halted h hne, _, rfl, rfl⟩

end Sys2Proof.Machine
end

section
/-! RESET (70_reset_and_hazards.md R160, R161) and the hazard of a counter past `CMP` (R165). -/

namespace Sys2Proof.Machine

/-- A counter past `CMP` is not at `CMP` again until it has wrapped and counted up to it (70_reset_and_hazards.md R165). -/
theorem counter_ne_cmp_before_wrap {size counter cmp j : Nat} (hpast : cmp < counter) (hcounter : counter < size)
    (hj : j < size - counter + cmp) : (counter + j) % size ≠ cmp := by
  by_cases hwrap : counter + j < size
  · rw [Nat.mod_eq_of_lt hwrap]
    omega
  · rw [Nat.mod_eq_sub_mod (by omega), Nat.mod_eq_of_lt (by omega)]
    omega

/-- Settles O29: no TICK before the wrap and the count up to `CMP` finds the counter there, and the next one does. -/
theorem counterPastCompareWrapsFirst : Obligations.CounterPastCompareWrapsFirst := by
  intro s n hready hpast hcounter
  have hcount : ∀ m ≤ 2 ^ s.cfg.compareWidth - s.timer.counter.toNat + s.timer.cmp.toNat,
      runSteps (List.replicate m .tick) s = .next { s with timer :=
        { s.timer with counter := BitVec.ofNat 32 ((s.timer.counter.toNat + m) % 2 ^ s.cfg.compareWidth) } } :=
    fun m hm => runSteps_ticks_count hready hcounter fun j hj =>
      counter_ne_cmp_before_wrap hpast hcounter (hj.trans_le hm)
  refine ⟨hcount n, ?_⟩
  rintro rfl
  rw [runSteps_ticks_succ (hcount _ le_rfl), ← Nat.add_assoc, Nat.add_sub_cancel' hcounter.le, Nat.add_mod_left,
    Nat.mod_eq_of_lt (hpast.trans hcounter), BitVec.ofNat_toNat, BitVec.setWidth_eq]
  exact tickAtCompareIsTheMatch _ hready rfl

/-- SERVICE has no step without a pending event (60_exceptions.md R145, 10_state.md R22). -/
theorem stepService_of_not_pending {s : State} (h0 : s.fault.halted = false) (hpending : s.timer.pending = false) :
    stepService s = .fault (.notEnabled .service) := by
  rw [stepService, whenRunning_of_running h0, TimerRegs.serviceEnabled, hpending]
  rfl

/-- Settles O54: after RESET the timer is stopped with no event pending, and the invariant lets every HOST step go on. -/
theorem afterResetOnlyHostAndResetAreEnabled : Obligations.AfterResetOnlyHostAndResetAreEnabled := by
  rintro s _ ⟨⟩
  exact ⟨(tickElsewhereCounts s.resetBlock rfl).2 rfl, stepService_of_not_pending rfl rfl,
    stepHost_progress (inv_resetBlock s) rfl, _, rfl⟩

/-- Settles O53: the step is `State.resetBlock`, each of whose fields is the reset value written out in 10_state.md R34. -/
theorem resetRestoresEveryField : Obligations.ResetRestoresEveryField :=
  ⟨fun s => ⟨s.resetBlock, rfl, s.resetBlock_ramp, s.resetBlock_timer, s.resetBlock_fault, s.resetBlock_filters,
    s.resetBlock_cfg, s.resetBlock_trace⟩, fun _ => rfl⟩

end Sys2Proof.Machine
end
